-- ==== Sys2Proof/Word.lean ====
section
/-! DEFINITION. The value types of the block: every value is an unsigned integer of a stated width
(00_scope.md R10). -/

namespace Sys2Proof

/-- Eight bits: a bus frame, a nibble argument, a command or data byte, a cursor operand. -/
abbrev Byte := BitVec 8

/-- Four bits: half of a byte (00_scope.md R12). -/
abbrev Nibble := BitVec 4

/-- A device address of the transport, seven bits (20_memory.md R41). -/
abbrev DevAddr := BitVec 7

/-- A DDRAM address of the display, seven bits (20_memory.md R44). -/
abbrev DdramAddr := BitVec 7

/-- The outcome of one transport write, and of one operation (60_exceptions.md R150, R152;
30_encoding.md R66, R67). -/
inductive Status where
  | ok
  | fail
  deriving DecidableEq, Repr, Inhabited

end Sys2Proof
end

