-- ==== Sys2Proof/Config.lean ====
section
/-! DEFINITION. The parameters of the block as one record (00_scope.md R5, 41_display_commands.md R100),
when a configuration is admitted (00_scope.md R6), and the one free value of the model. The values this
hardware takes are in Machine/Params.lean. -/

namespace Sys2Proof

/-- Every parameter of 00_scope.md R5 and every constant of 41_display_commands.md R100.
Delays are lower bounds in milliseconds (70_reset_and_hazards.md R190). -/
structure Config where
  i2cAddr : DevAddr
  timeoutMs : Nat
  rows : Nat
  cols : Nat
  rowOffset : List Nat
  bl : Byte
  en : Byte
  rw : Byte
  rs : Byte
  dataMask : Byte
  tPowerup : Nat
  tWake1 : Nat
  tWake2 : Nat
  tWake3 : Nat
  t4Bit : Nat
  tEnHigh : Nat
  tEnLow : Nat
  tClear : Nat
  cmdClearDisplay : Byte
  cmdEntryModeSet : Byte
  entryIncrement : Byte
  entryDecrement : Byte
  entryShiftOn : Byte
  entryShiftOff : Byte
  cmdDisplayControl : Byte
  displayOn : Byte
  cursorOff : Byte
  cursorOn : Byte
  blinkOff : Byte
  blinkOn : Byte
  cmdFunctionSet : Byte
  mode4Bit : Byte
  mode8Bit : Byte
  lines2 : Byte
  lines1 : Byte
  font5x8 : Byte
  font5x10 : Byte
  cmdSetCgram : Byte
  cmdSetDdram : Byte
  deriving DecidableEq, Repr

/-- R6: `BL`, `EN`, `RW`, `RS` each have exactly one bit set, inside 0x0F. -/
abbrev Config.MasksSingle (c : Config) : Prop :=
  ∀ m ∈ [c.bl, c.en, c.rw, c.rs], m ∈ [0x01#8, 0x02#8, 0x04#8, 0x08#8]

/-- R6: the four masks are distinct. -/
abbrev Config.MasksDistinct (c : Config) : Prop :=
  [c.bl, c.en, c.rw, c.rs].Nodup

/-- R6: `1 <= ROWS <= 256` and `1 <= COLS <= 256`. -/
abbrev Config.SizesFit (c : Config) : Prop :=
  (1 ≤ c.rows ∧ c.rows ≤ 256) ∧ (1 ≤ c.cols ∧ c.cols ≤ 256)

/-- R6: `ROW_OFFSET` has exactly `ROWS` entries, and the last column of every row has a 7-bit address. -/
abbrev Config.OffsetsFit (c : Config) : Prop :=
  c.rowOffset.length = c.rows ∧ ∀ o ∈ c.rowOffset, o + (c.cols - 1) ≤ 0x7F

/-- The well-formedness of a configuration (00_scope.md R6). `I2C_ADDR <= 0x7F` holds by the field's type.
The machine is built at one configuration, `Machine.cfg`, which satisfies this; no other is admitted. -/
abbrev Config.WellFormed (c : Config) : Prop :=
  c.MasksSingle ∧ c.MasksDistinct ∧ c.SizesFit ∧ c.OffsetsFit

/-- FREE VALUE (notes/assumptions/2.md): the transport's answer to the `n`-th write, where State lists no
answer for it. "A free input, drawn afresh at every `TX`, under no law" (60_exceptions.md R151). It has no
body, so no proof can see it. -/
opaque Config.transportAnswer : Nat → Status

end Sys2Proof
end

