-- ==== Sys2Proof/Machine/Params.lean ====
section
/-! DEFINITION. The configuration of this hardware: every default of 00_scope.md R5, and the display's command
codes of 41_display_commands.md R100. -/

namespace Sys2Proof.Machine

/-- The values of 00_scope.md R5 and 41_display_commands.md R100.
UNVERIFIED (notes/assumptions/10.md): every field from `cmdClearDisplay` on is marked by the spec as "from general
knowledge, not in source" (93_implementation_defined.md G1). -/
def cfg : Config where
  i2cAddr := 0x27#7
  timeoutMs := 1000
  rows := 2
  cols := 16
  rowOffset := [0x00, 0x40]
  bl := 0x08#8
  en := 0x04#8
  rw := 0x02#8
  rs := 0x01#8
  dataMask := 0xF0#8
  tPowerup := 50
  tWake1 := 5
  tWake2 := 1
  tWake3 := 1
  t4Bit := 1
  tEnHigh := 1
  tEnLow := 1
  tClear := 2
  cmdClearDisplay := 0x01#8
  cmdEntryModeSet := 0x04#8
  entryIncrement := 0x02#8
  entryDecrement := 0x00#8
  entryShiftOn := 0x01#8
  entryShiftOff := 0x00#8
  cmdDisplayControl := 0x08#8
  displayOn := 0x04#8
  cursorOff := 0x00#8
  cursorOn := 0x02#8
  blinkOff := 0x00#8
  blinkOn := 0x01#8
  cmdFunctionSet := 0x20#8
  mode4Bit := 0x00#8
  mode8Bit := 0x10#8
  lines2 := 0x08#8
  lines1 := 0x00#8
  font5x8 := 0x00#8
  font5x10 := 0x04#8
  cmdSetCgram := 0x40#8
  cmdSetDdram := 0x80#8

end Sys2Proof.Machine
end

