-- ==== Sys2Proof/Machine/Operands.lean ====
section
/-! DEFINITION. How the block assembles every field it sends (30_encoding.md, section 2), and every computation it
does (30_encoding.md R81). Each function takes the configuration, since the rules are stated for any admitted one. -/

namespace Sys2Proof.Machine

/-- 30_encoding.md R62: the mode flag is 0x00 for the instruction register, the `RS` mask for the data register. -/
def modeFlag (c : Config) (data : Bool) : Byte := if data then c.rs else 0#8

/-- R62: the two legal mode flags. -/
def isModeFlag (c : Config) (m : Byte) : Bool := m == 0#8 || m == c.rs

/-- 30_encoding.md R68: `hi <- (value & 0xF0) | m`. -/
def nibbleHi (c : Config) (value m : Byte) : Byte := (value &&& c.dataMask) ||| m

/-- 30_encoding.md R68: `lo <- ((value << 4) & 0xF0) | m`. -/
def nibbleLo (c : Config) (value m : Byte) : Byte := ((value <<< 4) &&& c.dataMask) ||| m

/-- 30_encoding.md R69: the frame with the enable bit set, `a | BL | EN`. -/
def frameHi (c : Config) (a : Byte) : Byte := a ||| c.bl ||| c.en

/-- 30_encoding.md R69: the same frame with the enable bit cleared, `(a | BL) & ~EN`. -/
def frameLo (c : Config) (a : Byte) : Byte := (a ||| c.bl) &&& ~~~c.en

/-- The frame bits that are not data and not register select: `BL`, `EN`, `RW` (30_encoding.md R60). -/
def controlMask (c : Config) : Byte := c.bl ||| c.en ||| c.rw

/-- 30_encoding.md R60: the FRAME with data nibble `n`, register select `r`, backlight 1, read/write 0 and the
enable bit as given. -/
def frameOf (c : Config) (enable : Bool) (n : Nibble) (r : Bool) : Byte :=
  (n.setWidth 8 <<< 4) ||| c.bl ||| (if enable then c.en else 0#8) ||| (if r then c.rs else 0#8)

/-- 30_encoding.md R61, R64: the NARG `{n, 0b000, m}`. -/
def nargOf (n : Nibble) (m : BitVec 1) : Byte := n ++ 0#3 ++ m

/-- 30_encoding.md R61: the bits of a NARG that are always 0. -/
def nargZeroMask : Byte := 0x0E#8

/-- 30_encoding.md R64, 41_display_commands.md R101: the nibble of WAKE, a literal of the source. -/
def wakeNibble : Nibble := 0x3#4

/-- 30_encoding.md R64, 41_display_commands.md R102: the nibble of SET4BIT, a literal of the source. -/
def set4BitNibble : Nibble := 0x2#4

/-- 30_encoding.md R70, 00_scope.md R10: `clamp(v, size - 1) = min(v, size - 1)`: saturate, not modulo, not
rejection. -/
def clampIndex (v : Byte) (size : Nat) : Nat := min v.toNat (size - 1)

/-- 30_encoding.md R70: the clamped row. -/
def clampRow (c : Config) (row : Byte) : Nat := clampIndex row c.rows

/-- 30_encoding.md R70: the clamped column. -/
def clampCol (c : Config) (col : Byte) : Nat := clampIndex col c.cols

/-- 30_encoding.md R71: `ROW_OFFSET[r] + c` of the clamped operands, as a number. -/
def ddramSum (c : Config) (row col : Byte) : Nat :=
  c.rowOffset.getD (clampRow c row) 0 + clampCol c col

/-- 30_encoding.md R71: the DDRAM address, seven bits; 00_scope.md R6 keeps the sum below 0x80. -/
def ddramAddr (c : Config) (row col : Byte) : DdramAddr := BitVec.ofNat 7 (ddramSum c row col)

/-- 41_display_commands.md R103: 4-bit mode, 2 lines, 5×8 dots. -/
def functionSetByte (c : Config) : Byte := c.cmdFunctionSet ||| c.mode4Bit ||| c.lines2 ||| c.font5x8

/-- 41_display_commands.md R104: display on, cursor off, blink off. -/
def displayControlByte (c : Config) : Byte := c.cmdDisplayControl ||| c.displayOn ||| c.cursorOff ||| c.blinkOff

/-- 41_display_commands.md R105. -/
def clearDisplayByte (c : Config) : Byte := c.cmdClearDisplay

/-- 41_display_commands.md R106: left to right, no display shift. -/
def entryModeSetByte (c : Config) : Byte := c.cmdEntryModeSet ||| c.entryIncrement ||| c.entryShiftOff

/-- 30_encoding.md R72, 41_display_commands.md R107: `CMD_SET_DDRAM | addr`. -/
def setDdramByte (c : Config) (a : DdramAddr) : Byte := c.cmdSetDdram ||| a.setWidth 8

end Sys2Proof.Machine
end

