-- ==== Sys2Proof/Syntax.lean ====
section
/-! DEFINITION. The words of the four encoding layers (30_encoding.md R73) and the instructions they stand for: one
constructor of `Instr` per row of spec/opcode_table.json. -/

namespace Sys2Proof

/-- Format HOSTREQ, the host request (30_encoding.md R65). `text` carries its own length `len`; a field that the
operation does not use is ignored. -/
structure HostReq where
  op : BitVec 2
  row : Byte
  col : Byte
  text : List Byte
  deriving DecidableEq, Repr

/-- A word of one of the formats of 30_encoding.md section 1. The formats are separate encoding spaces: the same bits
mean different things in different layers. -/
inductive Code where
  /-- HOSTREQ (R65). -/
  | hostreq (r : HostReq)
  /-- The argument pair of `sendByte`, `{m, v[7:0]}`, nine bits (the table's format INTERNAL, R91). -/
  | internal (w : BitVec 9)
  /-- NARG, the argument of `sendNibble` (R61). -/
  | narg (a : Byte)
  /-- XFER5, `{rs, n[3:0]}` (R64). -/
  | xfer5 (w : BitVec 5)
  /-- XFER9, `{rs, b[7:0]}` (R63). -/
  | xfer9 (w : BitVec 9)
  /-- FRAME, the byte of a `TX` (R60). -/
  | frame (f : Byte)
  deriving DecidableEq, Repr

/-- The instructions of the block in the sense of 00_scope.md R9: the four host operations, the two internal
operations, the words sent to the display and the two frames. -/
inductive Instr where
  /-- INITIALIZE (42_initialization.md R120). -/
  | initialise
  /-- SETCURSOR (43_display_operations.md R130). -/
  | setCursor (row col : Byte)
  /-- PRINTSTRING (43_display_operations.md R131). -/
  | printString (text : List Byte)
  /-- CLEAR (43_display_operations.md R132). -/
  | clear
  /-- SENDBYTE (40_nibble_encoder.md R91); `m` is the mode flag, 0x00 or the `RS` mask. -/
  | sendByte (value m : Byte)
  /-- SENDNIBBLE (40_nibble_encoder.md R90); `a` is a NARG, bits 3:1 zero. -/
  | sendNibble (a : Byte)
  /-- WAKE (41_display_commands.md R101). -/
  | wake
  /-- SET4BIT (41_display_commands.md R102). -/
  | set4Bit
  /-- FUNCTION_SET (41_display_commands.md R103). -/
  | functionSet
  /-- DISPLAY_CONTROL (41_display_commands.md R104). -/
  | displayControl
  /-- CLEAR_DISPLAY (41_display_commands.md R105). -/
  | clearDisplay
  /-- ENTRY_MODE_SET (41_display_commands.md R106). -/
  | entryModeSet
  /-- SET_DDRAM_ADDR (41_display_commands.md R107). -/
  | setDdramAddr (a : DdramAddr)
  /-- WRITE_DATA (41_display_commands.md R108). -/
  | writeData (ch : Byte)
  /-- FRAME_EN_HIGH: data nibble `n`, register select `r`, enable 1 (30_encoding.md R60). -/
  | frameEnHigh (n : Nibble) (r : Bool)
  /-- FRAME_EN_LOW: the same with enable 0 (30_encoding.md R60). -/
  | frameEnLow (n : Nibble) (r : Bool)
  deriving DecidableEq, Repr

/-- The four operations the host can ask for (00_scope.md R7); the others are internal to the block. -/
def Instr.isHost : Instr → Bool
  | .initialise | .setCursor _ _ | .printString _ | .clear => true
  | .sendByte _ _ | .sendNibble _ | .wake | .set4Bit | .functionSet | .displayControl | .clearDisplay
  | .entryModeSet | .setDdramAddr _ | .writeData _ | .frameEnHigh _ _ | .frameEnLow _ _ => false

end Sys2Proof
end

