-- ==== Sys2Proof/WellFormed.lean ====
section
/-! DEFINITION. Which instruction terms the spec gives a meaning: the checks that the field types do not make already. -/

namespace Sys2Proof

/-- 30_encoding.md R61, R75: a NARG has bits 3:1 zero; R62: a mode flag is 0x00 or `RS`. Every other operand may take
every value of its type (30_encoding.md R74). -/
def Instr.wf : Instr → Bool
  | .sendByte _ m => Machine.isModeFlag Machine.cfg m
  | .sendNibble a => a &&& Machine.nargZeroMask == 0#8
  | .initialise | .setCursor _ _ | .printString _ | .clear | .wake | .set4Bit | .functionSet | .displayControl
  | .clearDisplay | .entryModeSet | .setDdramAddr _ | .writeData _ | .frameEnHigh _ _ | .frameEnLow _ _ => true

end Sys2Proof
end

