-- ==== Sys2Proof/Decode.lean ====
section
/-! DEFINITION. From a word of a format to the instruction it stands for, rejecting by name, and back; from the
opcode table's numbering of bits to a word. -/

namespace Sys2Proof

open Machine (cfg)

/-- Why a word stands for no instruction (30_encoding.md R75: what the block never forms). -/
inductive DecodeError where
  /-- A NARG with any of bits 3:1 set (R61, R75 (a)). -/
  | nargReservedBits (a : Byte)
  /-- An XFER5 other than WAKE and SET4BIT (R64, R75 (d)). -/
  | xfer5NeverSent (w : BitVec 5)
  /-- A command byte other than the five of R73 (R75 (c)). -/
  | xfer9NeverSent (w : BitVec 9)
  /-- A FRAME with `RW` = 1 or `BL` = 0 (R75 (b)). -/
  | frameNeverSent (f : Byte)
  deriving DecidableEq, Repr

/-- 30_encoding.md R65: all four codes are assigned (R74); a field the operation does not use is ignored. -/
def decodeHostReq (r : HostReq) : Instr :=
  if r.op = 0#2 then .initialise
  else if r.op = 1#2 then .setCursor r.row r.col
  else if r.op = 2#2 then .printString r.text
  else .clear

/-- 40_nibble_encoder.md R91: the word `{m[0], value}`. Total. -/
def decodeInternal (w : BitVec 9) : Instr :=
  .sendByte (w.extractLsb' 0 8) (Machine.modeFlag cfg (w.getLsbD 8))

/-- 30_encoding.md R61. -/
def decodeNarg (a : Byte) : Except DecodeError Instr :=
  if a &&& Machine.nargZeroMask = 0#8 then .ok (.sendNibble a) else .error (.nargReservedBits a)

/-- 30_encoding.md R64, R73. -/
def decodeXfer5 (w : BitVec 5) : Except DecodeError Instr :=
  if w = 0#1 ++ Machine.wakeNibble then .ok .wake
  else if w = 0#1 ++ Machine.set4BitNibble then .ok .set4Bit
  else .error (.xfer5NeverSent w)

/-- 30_encoding.md R63, R73: `rs` = 1 is a data byte; `rs` = 0 is one of the five command bytes. -/
def decodeXfer9 (w : BitVec 9) : Except DecodeError Instr :=
  let b := w.extractLsb' 0 8
  if w.getLsbD 8 then .ok (.writeData b)
  else if b = Machine.functionSetByte cfg then .ok .functionSet
  else if b = Machine.displayControlByte cfg then .ok .displayControl
  else if b = Machine.clearDisplayByte cfg then .ok .clearDisplay
  else if b = Machine.entryModeSetByte cfg then .ok .entryModeSet
  else if b &&& cfg.cmdSetDdram = cfg.cmdSetDdram then .ok (.setDdramAddr (b.extractLsb' 0 7))
  else .error (.xfer9NeverSent w)

/-- 30_encoding.md R60: the two patterns `nnnn110r` and `nnnn100r`. -/
def decodeFrame (f : Byte) : Except DecodeError Instr :=
  let n := f.extractLsb' 4 4
  let r := f &&& cfg.rs == cfg.rs
  if f &&& Machine.controlMask cfg = cfg.bl ||| cfg.en then .ok (.frameEnHigh n r)
  else if f &&& Machine.controlMask cfg = cfg.bl then .ok (.frameEnLow n r)
  else .error (.frameNeverSent f)

/-- The decoder, total on every word of every format (30_encoding.md R73). -/
def decode : Code → Except DecodeError Instr
  | .hostreq r => .ok (decodeHostReq r)
  | .internal w => .ok (decodeInternal w)
  | .narg a => decodeNarg a
  | .xfer5 w => decodeXfer5 w
  | .xfer9 w => decodeXfer9 w
  | .frame f => decodeFrame f

/-- The encoder: the word of each instruction, from the formats of 30_encoding.md R60 to R65 and the table. Fields of a
HOSTREQ that the operation does not use are 0. -/
def encode : Instr → Code
  | .initialise => .hostreq ⟨0#2, 0#8, 0#8, []⟩
  | .setCursor row col => .hostreq ⟨1#2, row, col, []⟩
  | .printString text => .hostreq ⟨2#2, 0#8, 0#8, text⟩
  | .clear => .hostreq ⟨3#2, 0#8, 0#8, []⟩
  | .sendByte value m => .internal (BitVec.ofBool (m == cfg.rs) ++ value)
  | .sendNibble a => .narg a
  | .wake => .xfer5 (0#1 ++ Machine.wakeNibble)
  | .set4Bit => .xfer5 (0#1 ++ Machine.set4BitNibble)
  | .functionSet => .xfer9 (0#1 ++ Machine.functionSetByte cfg)
  | .displayControl => .xfer9 (0#1 ++ Machine.displayControlByte cfg)
  | .clearDisplay => .xfer9 (0#1 ++ Machine.clearDisplayByte cfg)
  | .entryModeSet => .xfer9 (0#1 ++ Machine.entryModeSetByte cfg)
  | .setDdramAddr a => .xfer9 (0#1 ++ Machine.setDdramByte cfg a)
  | .writeData ch => .xfer9 (1#1 ++ ch)
  | .frameEnHigh n r => .frame (Machine.frameOf cfg true n r)
  | .frameEnLow n r => .frame (Machine.frameOf cfg false n r)

/-- A word with every unused HOSTREQ field 0: `encode` gives exactly these. -/
def Code.canonical : Code → Bool
  | .hostreq r =>
    if r.op = 1#2 then r.text == []
    else if r.op = 2#2 then r.row == 0#8 && r.col == 0#8
    else r.row == 0#8 && r.col == 0#8 && r.text == []
  | .internal _ | .narg _ | .xfer5 _ | .xfer9 _ | .frame _ => true

/-- Whether a word stands for an instruction. -/
def decodes (w : Code) : Bool :=
  match decode w with
  | .ok _ => true
  | .error _ => false

/-- The word of spec/opcode_table.json whose `nbits` low bits are `w`, bits numbered as the table numbers them. The
table's formats overlap where they have the same number of whole bytes, and the table's word carries no format: DESIGN
CHOICE (notes/assumptions/4.md): 8 bits: a value below 4 is a HOSTREQ operation code, else a NARG if bits 3:1 are 0,
else a FRAME; 16 bits (or 9): an XFER9 word of the table, else the argument pair of `sendByte`; 5 bits an XFER5, 2 bits
an operation code. Operand fields that the table gives no bits are 0 (an empty text). -/
def codeOfTableWord (nbits w : Nat) : Option Code :=
  match nbits with
  | 2 => if w < 4 then some (.hostreq ⟨BitVec.ofNat 2 w, 0#8, 0#8, []⟩) else none
  | 5 => if w < 32 then some (.xfer5 (BitVec.ofNat 5 w)) else none
  | 8 =>
    if w < 4 then some (.hostreq ⟨BitVec.ofNat 2 w, 0#8, 0#8, []⟩)
    else if w < 256 then
      if decodes (.narg (BitVec.ofNat 8 w)) then some (.narg (BitVec.ofNat 8 w))
      else some (.frame (BitVec.ofNat 8 w))
    else none
  | 9 | 16 =>
    if w < 512 then
      if decodes (.xfer9 (BitVec.ofNat 9 w)) then some (.xfer9 (BitVec.ofNat 9 w))
      else some (.internal (BitVec.ofNat 9 w))
    else none
  | _ => none

/-- The instruction the decoder reads from the table's bits. -/
def decodeTableWord (nbits w : Nat) : Option Instr :=
  match codeOfTableWord nbits w with
  | none => none
  | some c =>
    match decode c with
    | .ok i => some i
    | .error _ => none

end Sys2Proof
end

