-- ==== Sys2Proof/Machine/State.lean ====
section
/-! DEFINITION. The state of the machine as plain data (10_state.md R20 to R30), the events an observer sees
(00_scope.md R7), and the reasons a step can stop. -/

namespace Sys2Proof.Machine

/-- The controller state `fsm` (10_state.md R21). -/
inductive Fsm where
  | uninitialized
  | initializing
  | ready
  | faulted
  deriving DecidableEq, Repr

/-- One element of the running operation's remaining micro-sequence (10_state.md R24): a word of some layer still to be
run, or a wait of at least `ms` milliseconds. -/
inductive Task where
  | word (w : Code)
  | wait (ms : Nat)
  deriving DecidableEq, Repr

/-- The events of a trace (00_scope.md R7). `RET` answers the operation that was running. -/
inductive Event where
  /-- `CALL(op, operands)`: host to block. -/
  | call (op : Instr)
  /-- `TX(addr, byte, timeout_ms)` with its answer (30_encoding.md R67). -/
  | tx (addr : DevAddr) (byte : Byte) (timeoutMs : Nat) (answer : Status)
  /-- `DELAY(n)`: at least `ms` milliseconds (70_reset_and_hazards.md R190). -/
  | delay (ms : Nat)
  /-- `RET(status)`: block to host (30_encoding.md R66). -/
  | ret (status : Status)
  deriving DecidableEq, Repr

/-- Write-only memory behind the transport (20_memory.md R40 to R42): the byte on the output lines of the device at an
address. An address not listed is unknown: it reads as no value (10_state.md R28). Canonical form: `Memory.wf`. -/
abbrev Memory := List Host.Cell

/-- The canonical form: addresses strictly rising, so each at most once. No listed entry equals what an unlisted address
reads as, since that is no value at all. -/
abbrev Memory.wf (m : Memory) : Prop := m.Pairwise (fun x y => x.1 < y.1)

/-- The state. The first six fields are the block's own (10_state.md R20, R23, R24); `lines` is the expander's output
latch (R28); `trace` is what an observer sees (00_scope.md R7) and `linkOk` the ghost flag of 70_reset_and_hazards.md
R186; the last four are the model's inputs from outside (notes/assumptions/2.md and 3.md). -/
structure State where
  /-- The controller state (R21). -/
  fsm : Fsm
  /-- The logical cursor row (R22). -/
  curRow : Byte
  /-- The logical cursor column (R22). -/
  curCol : Byte
  /-- The sequencer position: how many micro-operations of the running operation are done (R24). -/
  seq : Nat
  /-- The running operation with its operands (R23, R24); none when idle. -/
  op : Option Instr
  /-- What remains of the running operation's micro-sequence, first element next (R24). -/
  todo : List Task
  /-- The expander's output latch, keyed by transport address (R28, 20_memory.md R42). -/
  lines : Memory
  /-- The events so far, oldest first (00_scope.md R7). -/
  trace : List Event
  /-- No `TX` has answered `fail` since reset (70_reset_and_hazards.md R186). -/
  linkOk : Bool
  /-- The transport's answers still to come, first one next; past its end, `Config.transportAnswer`. -/
  answers : List Status
  /-- How many answers have been drawn: the argument of `Config.transportAnswer`. -/
  draws : Nat
  /-- A host request presented now. -/
  port : Option HostReq
  /-- The requests the host makes later, each after the `RET` of the one before (70_reset_and_hazards.md R194). -/
  script : List HostReq
  deriving DecidableEq, Repr

/-- The machine has no stopping fault: the one error of the block, TransportFailure, ends an operation and not the
machine (60_exceptions.md R150, R153), and no address outside the transport's one device is ever reached (20_memory.md
R41). Nothing raises a fault, so the type has no constructor (notes/assumptions/17.md). -/
inductive Fault where
  deriving DecidableEq, Repr

/-- Why a step gives no meaning. -/
inductive Refusal where
  /-- An instruction not modelled yet, by name: raised by no arm, since every instruction has its meaning. Safe. -/
  | notModelled (mnemonic : String)
  /-- Raised by the four host operations when `fsm` is not the state they need: "a caller error", to which
  60_exceptions.md R157 gives no meaning (93_implementation_defined.md U1, U2). Safe: nothing is claimed of the run. -/
  | wrongState (fsm : Fsm)
  /-- Raised by a step, and by the four host operations, when a call comes while an operation runs: "not safe for
  concurrent callers" (20_memory.md R53, 60_exceptions.md R157, 93_implementation_defined.md U3). Safe. -/
  | callWhileBusy
  /-- Raised by SENDNIBBLE for a NARG with any of bits 3:1 set, which "has no meaning in this spec" (30_encoding.md R61).
  Safe: the block never forms one. -/
  | nargWithoutMeaning (a : Byte)
  /-- Raised by SENDBYTE for a mode flag that is neither 0x00 nor the `RS` mask, "its two legal values" (30_encoding.md
  R62). Safe: the block never forms one. -/
  | modeFlagWithoutMeaning (m : Byte)
  /-- Raised by a step for a word that stands for no instruction (30_encoding.md R75). Safe: the block never forms
  one. -/
  | undecodable (e : DecodeError)
  deriving DecidableEq, Repr

/-- 10_state.md R30: `fsm` = Uninitialized, cursor (0,0), idle, no `TX` emitted, the expander's lines unknown; `linkOk`
true (70_reset_and_hazards.md R186). DESIGN CHOICE (notes/assumptions/2.md, 3.md): no listed answer, no call presented. -/
def State.reset : State where
  fsm := .uninitialized
  curRow := 0#8
  curCol := 0#8
  seq := 0
  op := none
  todo := []
  lines := []
  trace := []
  linkOk := true
  answers := []
  draws := 0
  port := none
  script := []

end Sys2Proof.Machine
end

