-- ==== Sys2Proof/Machine/Flags.lean ====
section
/-! DEFINITION. The block has no condition codes (10_state.md R25). What stands for flags: the codes of `fsm` and of the
result, whether the block is busy, and the gate of the host operations. -/

namespace Sys2Proof.Machine

/-- 10_state.md R21: the 2-bit code of `fsm`. No interface shows it. -/
def fsmCode : Fsm → BitVec 2
  | .uninitialized => 0#2
  | .initializing => 1#2
  | .ready => 2#2
  | .faulted => 3#2

/-- 30_encoding.md R66: format HOSTRSP. -/
def statusCode : Status → BitVec 1
  | .ok => 0#1
  | .fail => 1#1

/-- 10_state.md R25: busy is not a stored flag but the fact that an operation is running. -/
def busy (s : State) : Bool := s.op.isSome || !s.todo.isEmpty

/-- The gate of 43_display_operations.md R133: which operation runs in which state. The internal operations have no gate:
they read no state (40_nibble_encoder.md). -/
def admits (f : Fsm) (i : Instr) : Bool :=
  match i with
  | .initialise => f == .uninitialized
  | .setCursor _ _ | .printString _ | .clear => f == .ready
  | .sendByte _ _ | .sendNibble _ | .wake | .set4Bit | .functionSet | .displayControl | .clearDisplay
  | .entryModeSet | .setDdramAddr _ | .writeData _ | .frameEnHigh _ _ | .frameEnLow _ _ => true

/-- 60_exceptions.md R153: what a failure makes of `fsm`: Initializing becomes Faulted, any other state stays. -/
def fsmAfterFailure : Fsm → Fsm
  | .initializing => .faulted
  | .uninitialized => .uninitialized
  | .ready => .ready
  | .faulted => .faulted

/-- 70_reset_and_hazards.md R186: `link_ok` becomes false, for good, at the first failing `TX`. -/
def linkAfter (linkOk : Bool) : Status → Bool
  | .ok => linkOk
  | .fail => false

end Sys2Proof.Machine
end

