-- ==== Sys2Proof/Machine/Ops.lean ====
section
/-! DEFINITION. The named operations over memory and state: the transport write, the wait, taking a failure, the end of an
operation, accepting a call. Every meaning is built from these. -/

namespace Sys2Proof.Machine

/-! ### Memory: the output lines behind the transport -/

/-- What is known of the byte at an address; `none` is unknown (10_state.md R28). -/
def Memory.read : Memory → Nat → Option Byte
  | [], _ => none
  | (k, v) :: rest, a => if k = a then some v else Memory.read rest a

/-- Store one byte, keeping the canonical form. -/
def Memory.write : Memory → Nat → Byte → Memory
  | [], a, b => [(a, b)]
  | (k, v) :: rest, a, b =>
    if a < k then (a, b) :: (k, v) :: rest
    else if a = k then (a, b) :: rest
    else (k, v) :: Memory.write rest a b

/-- Make the byte at an address unknown. -/
def Memory.forget : Memory → Nat → Memory
  | [], _ => []
  | (k, v) :: rest, a => if a = k then rest else (k, v) :: Memory.forget rest a

/-- 10_state.md R28: a write answered `ok` sets the lines to the byte; one answered `fail` leaves them unknown. -/
def Memory.afterWrite (m : Memory) (a : Nat) (b : Byte) : Status → Memory
  | .ok => m.write a b
  | .fail => m.forget a

/-! ### The transport's answers -/

/-- The answer to the `k`-th `TX` from now: the listed one, else a free value (60_exceptions.md R151). -/
def State.answerAt (s : State) (k : Nat) : Status :=
  match s.answers[k]? with
  | some a => a
  | none => Config.transportAnswer (s.draws + k)

/-! ### Events -/

/-- Append one event to the trace. -/
def emit (e : Event) (s : State) : State := { s with trace := s.trace ++ [e] }

/-- 10_state.md R24: the sequencer advances by exactly one. -/
def advance (s : State) : State := { s with seq := s.seq + 1 }

/-- 00_scope.md R11, `MemWrite(addr, 1, b)`: emit `TX(addr, b, TIMEOUT_MS)`, take the transport's answer, and let it act
on the lines (10_state.md R28) and on the ghost flag (70_reset_and_hazards.md R186). The answer is `s.answerAt 0`. -/
def memWrite (addr : DevAddr) (b : Byte) (s : State) : State :=
  { s with
    trace := s.trace ++ [.tx addr b cfg.timeoutMs (s.answerAt 0)]
    lines := s.lines.afterWrite addr.toNat b (s.answerAt 0)
    linkOk := linkAfter s.linkOk (s.answerAt 0)
    answers := s.answers.tail
    draws := s.draws + 1 }

/-- 60_exceptions.md R153, TAKING THE ONE ERROR of the block, TransportFailure: the running operation ends, nothing more
of it is emitted, `seq` is idle, Initializing becomes Faulted, the cursor keeps its value, the host gets `fail`. Nothing
is saved, so there is no return from it (R160). -/
def abort (s : State) : State :=
  emit (.ret .fail)
    { s with op := none, todo := [], seq := 0, fsm := fsmAfterFailure s.fsm }

/-- `Tx(b)` inside an operation (00_scope.md R11, 40_nibble_encoder.md R93): the write to `I2C_ADDR`; the sequencer goes
on if the answer is `ok`, and the operation is aborted if it is `fail`. -/
def transmit (b : Byte) (s : State) : State :=
  match s.answerAt 0 with
  | .ok => advance (memWrite cfg.i2cAddr b s)
  | .fail => abort (memWrite cfg.i2cAddr b s)

/-- `Delay(n)` (00_scope.md R11, 70_reset_and_hazards.md R190). -/
def delay (ms : Nat) (s : State) : State := advance (emit (.delay ms) s)

/-! ### Operations -/

/-- A subroutine call, or the unfolding of a word into the words of the next layer: the tasks are done before the rest. -/
def push (ts : List Task) (s : State) : State := { s with todo := ts ++ s.todo }

/-- The task that runs an instruction. -/
def runTask (i : Instr) : Task := .word (encode i)

/-- The start of a host operation: the `CALL` event, the sequencer at position 0 of its micro-sequence, and the state
`fsm` takes at acceptance. -/
def start (i : Instr) (f : Fsm) (ts : List Task) (s : State) : State :=
  emit (.call i) { s with op := some i, todo := ts, seq := 0, fsm := f }

/-- A `CALL`: refused while an operation runs (20_memory.md R53) and in the wrong state (43_display_operations.md R133),
before any operand is looked at; else it starts. -/
def accept (i : Instr) (f : Fsm) (ts : List Task) (s : State) : Host.Outcome State Fault Refusal :=
  if busy s then .refused .callWhileBusy
  else if admits s.fsm i then .next (start i f ts s)
  else .refused (.wrongState s.fsm)

/-- What a successful operation writes at its end (10_state.md R22; 42_initialization.md R120, R128;
43_display_operations.md R130 to R132). -/
def completion (i : Instr) (s : State) : State :=
  match i with
  | .initialise => { s with fsm := .ready, curRow := 0#8, curCol := 0#8 }
  | .setCursor row col =>
    { s with curRow := BitVec.ofNat 8 (clampRow cfg row), curCol := BitVec.ofNat 8 (clampCol cfg col) }
  | .clear => { s with curRow := 0#8, curCol := 0#8 }
  | .printString _ | .sendByte _ _ | .sendNibble _ | .wake | .set4Bit | .functionSet | .displayControl
  | .clearDisplay | .entryModeSet | .setDdramAddr _ | .writeData _ | .frameEnHigh _ _ | .frameEnLow _ _ => s

/-- The micro-sequence has run out: the operation succeeds (40_nibble_encoder.md R93), writes its results, the host gets
`ok`, and the block is idle (43_display_operations.md R135). -/
def finish (i : Instr) (s : State) : State :=
  emit (.ret .ok) { completion i s with op := none, todo := [], seq := 0 }

end Sys2Proof.Machine
end

