-- ==== Sys2Proof/Machine/Commands.lean ====
section
/-! DEFINITION. The words sent to the display (41_display_commands.md): each is one `sendNibble` or one `sendByte`, with
the wait the block keeps after it where that wait belongs to the word. -/

namespace Sys2Proof.Machine

/-- 41_display_commands.md R101: `sendNibble(0x30)`. The waits after the three WAKEs differ and are `initialize`'s. -/
def execWake (s : State) : Host.Outcome State Fault Refusal :=
  .next (push [runTask (.sendNibble (nargOf wakeNibble 0#1))] s)

/-- 41_display_commands.md R102: `sendNibble(0x20)`. The wait after it is `initialize`'s. -/
def execSet4Bit (s : State) : Host.Outcome State Fault Refusal :=
  .next (push [runTask (.sendNibble (nargOf set4BitNibble 0#1))] s)

/-- 41_display_commands.md R103: `sendByte(0x28, 0)`. -/
def execFunctionSet (s : State) : Host.Outcome State Fault Refusal :=
  .next (push [runTask (.sendByte (functionSetByte cfg) (modeFlag cfg false))] s)

/-- 41_display_commands.md R104: `sendByte(0x0C, 0)`. -/
def execDisplayControl (s : State) : Host.Outcome State Fault Refusal :=
  .next (push [runTask (.sendByte (displayControlByte cfg) (modeFlag cfg false))] s)

/-- 41_display_commands.md R105: `sendByte(0x01, 0)`, then `T_CLEAR`, "always, in both senders". -/
def execClearDisplay (s : State) : Host.Outcome State Fault Refusal :=
  .next (push [runTask (.sendByte (clearDisplayByte cfg) (modeFlag cfg false)), .wait cfg.tClear] s)

/-- 41_display_commands.md R106: `sendByte(0x06, 0)`. -/
def execEntryModeSet (s : State) : Host.Outcome State Fault Refusal :=
  .next (push [runTask (.sendByte (entryModeSetByte cfg) (modeFlag cfg false))] s)

/-- 41_display_commands.md R107: `sendByte(0x80 | addr, 0)`. -/
def execSetDdramAddr (a : DdramAddr) (s : State) : Host.Outcome State Fault Refusal :=
  .next (push [runTask (.sendByte (setDdramByte cfg a) (modeFlag cfg false))] s)

/-- 41_display_commands.md R108: `sendByte(ch, RS)`. -/
def execWriteData (ch : Byte) (s : State) : Host.Outcome State Fault Refusal :=
  .next (push [runTask (.sendByte ch (modeFlag cfg true))] s)

end Sys2Proof.Machine
end

