-- ==== Sys2Proof/Machine/Encoder.lean ====
section
/-! DEFINITION. The NibbleEncoder (40_nibble_encoder.md): SENDBYTE, SENDNIBBLE and the two frames. -/

namespace Sys2Proof.Machine

/-- 40_nibble_encoder.md R91: two nibbles, high first; `m` is 0x00 or `RS` (30_encoding.md R62). -/
def execSendByte (value m : Byte) (s : State) : Host.Outcome State Fault Refusal :=
  if isModeFlag cfg m then
    .next (push [.word (.narg (nibbleHi cfg value m)), .word (.narg (nibbleLo cfg value m))] s)
  else .refused (.modeFlagWithoutMeaning m)

/-- 40_nibble_encoder.md R90: the frame with enable set, a hold, the same frame with enable cleared, a hold. -/
def execSendNibble (a : Byte) (s : State) : Host.Outcome State Fault Refusal :=
  if a &&& nargZeroMask = 0#8 then
    .next (push [.word (.frame (frameHi cfg a)), .wait cfg.tEnHigh,
      .word (.frame (frameLo cfg a)), .wait cfg.tEnLow] s)
  else .refused (.nargWithoutMeaning a)

/-- 40_nibble_encoder.md R90, 30_encoding.md R60: one `TX` of the frame with `EN` = 1. -/
def execFrameEnHigh (n : Nibble) (r : Bool) (s : State) : Host.Outcome State Fault Refusal :=
  .next (transmit (frameOf cfg true n r) s)

/-- 40_nibble_encoder.md R90, 30_encoding.md R60: one `TX` of the frame with `EN` = 0. -/
def execFrameEnLow (n : Nibble) (r : Bool) (s : State) : Host.Outcome State Fault Refusal :=
  .next (transmit (frameOf cfg false n r) s)

end Sys2Proof.Machine
end

