-- ==== Sys2Proof/Machine/HostOps.lean ====
section
/-! DEFINITION. The four host operations (42_initialization.md, 43_display_operations.md): the gate, the words each
sends in order, and the waits between them. What they write at their end is `completion`. -/

namespace Sys2Proof.Machine

/-- 42_initialization.md R120 to R127: the seven steps. -/
def initTasks : List Task :=
  [ .wait cfg.tPowerup,
    runTask .wake, .wait cfg.tWake1, runTask .wake, .wait cfg.tWake2, runTask .wake, .wait cfg.tWake3,
    runTask .set4Bit, .wait cfg.t4Bit,
    runTask .functionSet,
    runTask .displayControl,
    runTask .clearDisplay,
    runTask .entryModeSet ]

/-- 42_initialization.md R120: runs in Uninitialized only; `fsm` is Initializing from the acceptance (R128). -/
def execInitialise (s : State) : Host.Outcome State Fault Refusal :=
  accept .initialise .initializing initTasks s

/-- 43_display_operations.md R130: one SET_DDRAM_ADDR with the address of the clamped operands. -/
def execSetCursor (row col : Byte) (s : State) : Host.Outcome State Fault Refusal :=
  accept (.setCursor row col) s.fsm [runTask (.setDdramAddr (ddramAddr cfg row col))] s

/-- 43_display_operations.md R131: one WRITE_DATA per character, in order; the empty text sends nothing. -/
def execPrintString (text : List Byte) (s : State) : Host.Outcome State Fault Refusal :=
  accept (.printString text) s.fsm (text.map (fun ch => runTask (.writeData ch))) s

/-- 43_display_operations.md R132: one CLEAR_DISPLAY with its wait. -/
def execClear (s : State) : Host.Outcome State Fault Refusal :=
  accept .clear s.fsm [runTask .clearDisplay] s

end Sys2Proof.Machine
end

