-- ==== Sys2Proof/Machine/Dispatch.lean ====
section
/-! DEFINITION. One arm per instruction, each a direct call of its meaning. -/

namespace Sys2Proof.Machine

def exec (i : Instr) (s : State) : Host.Outcome State Fault Refusal :=
  match i with
  | .initialise => Sys2Proof.Machine.execInitialise s
  | .setCursor row col => Sys2Proof.Machine.execSetCursor row col s
  | .printString text => Sys2Proof.Machine.execPrintString text s
  | .clear => Sys2Proof.Machine.execClear s
  | .sendByte value m => Sys2Proof.Machine.execSendByte value m s
  | .sendNibble a => Sys2Proof.Machine.execSendNibble a s
  | .wake => Sys2Proof.Machine.execWake s
  | .set4Bit => Sys2Proof.Machine.execSet4Bit s
  | .functionSet => Sys2Proof.Machine.execFunctionSet s
  | .displayControl => Sys2Proof.Machine.execDisplayControl s
  | .clearDisplay => Sys2Proof.Machine.execClearDisplay s
  | .entryModeSet => Sys2Proof.Machine.execEntryModeSet s
  | .setDdramAddr a => Sys2Proof.Machine.execSetDdramAddr a s
  | .writeData ch => Sys2Proof.Machine.execWriteData ch s
  | .frameEnHigh n r => Sys2Proof.Machine.execFrameEnHigh n r s
  | .frameEnLow n r => Sys2Proof.Machine.execFrameEnLow n r s

end Sys2Proof.Machine
end

