-- ==== Sys2Proof/Machine/Sequencer.lean ====
section
/-! DEFINITION. What the block does next: the sequencer's fetch, and the placing of a word where it fetches. -/

namespace Sys2Proof.Machine

/-- What the block does next. -/
inductive Fetch where
  /-- A host request stands at the port while an operation runs (20_memory.md R53). -/
  | callWhileBusy
  /-- A word is to be run, in the state after it was taken. -/
  | word (w : Code) (s : State)
  /-- A wait is to be kept, in the state after it was taken. -/
  | wait (ms : Nat) (s : State)
  /-- The running operation's micro-sequence has run out. -/
  | finished (i : Instr)
  /-- No operation runs and no request is made: the block waits for a `CALL` (70_reset_and_hazards.md R180). -/
  | idle
  deriving DecidableEq, Repr

/-- The next thing to do (10_state.md R24, 70_reset_and_hazards.md R194): the first remaining task; when none is left the
end of the operation; when idle the request at the port, else the next one of the host's script. -/
def fetch (s : State) : Fetch :=
  if busy s && s.port.isSome then .callWhileBusy
  else
    match s.todo, s.op, s.port, s.script with
    | .word w :: rest, _, _, _ => .word w { s with todo := rest }
    | .wait ms :: rest, _, _, _ => .wait ms { s with todo := rest }
    | [], some i, _, _ => .finished i
    | [], none, some r, _ => .word (.hostreq r) { s with port := none }
    | [], none, none, r :: rest => .word (.hostreq r) { s with script := rest }
    | [], none, none, [] => .idle

/-- The instruction a word stands for, if it does. -/
def decoded (w : Code) : Option Instr :=
  match decode w with
  | .ok i => some i
  | .error _ => none

/-- Place a word where the next fetch takes it: a host request at the port of an idle block; a word of an inner layer as
the one remaining task of an operation of its own, which is how the DisplayController calls it (notes/assumptions/3.md
and 11.md). -/
def placeWord (w : Code) (s : State) : State :=
  match w with
  | .hostreq r => { s with op := none, todo := [], seq := 0, port := some r }
  | .internal _ | .narg _ | .xfer5 _ | .xfer9 _ | .frame _ =>
    { s with op := decoded w, todo := [.word w], seq := 0, port := none }

/-- `placeWord` for a word of the opcode table; bits that are no word of any row are placed as the all-zero FRAME, which
stands for nothing (30_encoding.md R75 (b)), so that the next step refuses them. -/
def placeTableWord (nbits w : Nat) (s : State) : State :=
  match codeOfTableWord nbits w with
  | some c => placeWord c s
  | none => placeWord (.frame 0#8) s

end Sys2Proof.Machine
end

