-- ==== Sys2Proof/Machine/Step.lean ====
section
/-! DEFINITION. One step of the block: at most one event toward the transport or the time base (00_scope.md R7). -/

namespace Sys2Proof.Machine

/-- One step: run the next word, keep the next wait, end the operation, or wait for a call. A word is run by `exec`; a
call made while an operation runs, and a word that stands for nothing, are refused. -/
def step (s : State) : Host.Outcome State Fault Refusal :=
  match fetch s with
  | .callWhileBusy => .refused .callWhileBusy
  | .word w t =>
    match decode w with
    | .ok i => exec i t
    | .error e => .refused (.undecodable e)
  | .wait ms t => .next (delay ms t)
  | .finished i => .next (finish i s)
  | .idle => .next s

/-- `s` with the table's word where `step` fetches next (notes/assumptions/3.md). -/
def State.withFetchWord (s : State) (nbits w : Nat) : State := placeTableWord nbits w s

end Sys2Proof.Machine
end

