-- ==== Sys2Proof/Machine/Trace.lean ====
section
/-! DEFINITION. Readings of a trace: the frames sent, the waits, and the nibbles the display latches
(40_nibble_encoder.md R94). Nothing in the machine reads them; claims are stated in them. -/

namespace Sys2Proof.Machine

/-- The frames of a trace's `TX` events, in order, whatever their answer. -/
def framesSent : List Event → List Byte
  | [] => []
  | .tx _ b _ _ :: rest => b :: framesSent rest
  | .call _ :: rest | .delay _ :: rest | .ret _ :: rest => framesSent rest

/-- The `DELAY` bounds of a trace, in order. -/
def waitsKept : List Event → List Nat
  | [] => []
  | .delay ms :: rest => ms :: waitsKept rest
  | .call _ :: rest | .tx _ _ _ _ :: rest | .ret _ :: rest => waitsKept rest

/-- The least time the waits of a trace take: consecutive waits add (70_reset_and_hazards.md R190). -/
def leastWait (tr : List Event) : Nat := (waitsKept tr).sum

/-- Whether some `TX` of the trace answered `fail`. -/
def anyFailed : List Event → Bool
  | [] => false
  | .tx _ _ _ .fail :: _ => true
  | .tx _ _ _ .ok :: rest => anyFailed rest
  | .call _ :: rest | .delay _ :: rest | .ret _ :: rest => anyFailed rest

/-- The frames that reached the expander up to the first failing `TX`; from there on the lines are unknown (R94). -/
def framesReceived : List Event → List Byte
  | [] => []
  | .tx _ b _ .ok :: rest => b :: framesReceived rest
  | .tx _ _ _ .fail :: _ => []
  | .call _ :: rest | .delay _ :: rest | .ret _ :: rest => framesReceived rest

/-- R94: a frame `f1` with enable set, directly followed by `f1` with enable cleared, latches `(f1[0], f1[7:4])`. -/
def latchedOf : List Byte → List (Bool × Nibble)
  | [] => []
  | [_] => []
  | f1 :: f2 :: rest =>
    if f1 &&& cfg.en ≠ 0#8 ∧ f2 = f1 &&& ~~~cfg.en then
      (f1.getLsbD 0, f1.extractLsb' 4 4) :: latchedOf (f2 :: rest)
    else latchedOf (f2 :: rest)

/-- The latched-nibble stream of a trace, `(rs, nibble)` in order (R94). Defined for failure-free traces; of another it is
the stream up to the failure. -/
def latched (tr : List Event) : List (Bool × Nibble) := latchedOf (framesReceived tr)

end Sys2Proof.Machine
end

