-- ==== Sys2Proof/Machine/Display.lean ====
section
/-! DEFINITION. What can be said of the display from a trace: the effects 41_display_commands.md quotes, word by word,
and unknown wherever the spec fixes nothing. The display is not part of the block (00_scope.md R4, 10_state.md R29): this
is a reading of the trace, like the latched-nibble stream it is built on (40_nibble_encoder.md R94); no meaning reads it.
It rests on the premises of 41_display_commands.md R110 and is unknown after any failure (70_reset_and_hazards.md R185).
DESIGN CHOICE (notes/assumptions/14.md). -/

namespace Sys2Proof.Machine

/-- What is known of a character position. -/
inductive Cell where
  | unknown
  | blank
  | char (ch : Byte)
  deriving DecidableEq, Repr

/-- What is known of the display. -/
structure View where
  /-- Consecutive WAKE nibbles latched while the bus width is unknown (R101). -/
  wakes : Nat
  /-- The display pairs nibbles (R102, 30_encoding.md R77). -/
  fourBit : Bool
  /-- The first nibble of a pair, with its register select, when the second is awaited. -/
  half : Option (Bool × Nibble)
  /-- The function set of R103 has been received: 4-bit mode, two lines, 5×8 dots. -/
  twoLines5x8 : Bool
  /-- The display control of R104 has been received: display on, cursor off, blink off. -/
  onNoCursorNoBlink : Bool
  /-- The entry mode of R106 has been received: left to right, no shift. -/
  leftToRight : Bool
  /-- The display's own address counter, if known. -/
  addr : Option DdramAddr
  /-- What a position holds to which no known character has been written since. -/
  background : Cell
  /-- The characters written at known addresses. -/
  written : Memory
  deriving DecidableEq, Repr

/-- Nothing is known: before anything is latched (70_reset_and_hazards.md R181) and after any failure (R185). -/
def View.unknown : View where
  wakes := 0
  fourBit := false
  half := none
  twoLines5x8 := false
  onNoCursorNoBlink := false
  leftToRight := false
  addr := none
  background := .unknown
  written := []

/-- What is known of one character position. -/
def View.cell (v : View) (a : DdramAddr) : Cell :=
  match v.written.read a.toNat with
  | some ch => .char ch
  | none => v.background

/-- The address after a character written at `a`: the next position inside the row, if the entry mode is known (R106,
R108). Past the end of a row it is unknown (93_implementation_defined.md U4). -/
def nextAddr (v : View) (a : DdramAddr) : Option DdramAddr :=
  if v.leftToRight && cfg.rowOffset.any (fun o => o ≤ a.toNat && a.toNat < o + (cfg.cols - 1)) then some (a + 1#7)
  else none

/-- A data byte is stored "at its current address" (R108). At an unknown address it may overwrite any position. -/
def View.store (v : View) (ch : Byte) : View :=
  match v.addr with
  | some a => { v with written := v.written.write a.toNat ch, addr := nextAddr v a }
  | none => { v with written := [], background := .unknown }

/-- The effect of one byte, by the word it is: the effects stated in R103 to R108. A byte that is no word of the block
leaves nothing known. -/
def View.receive (v : View) (rs : Bool) (b : Byte) : View :=
  match decode (.xfer9 (BitVec.ofBool rs ++ b)) with
  | .ok .functionSet => { v with twoLines5x8 := true }
  | .ok .displayControl => { v with onNoCursorNoBlink := true }
  | .ok .clearDisplay => { v with background := .blank, written := [], addr := some (BitVec.ofNat 7 (cfg.rowOffset.getD 0 0)) }
  | .ok .entryModeSet => { v with leftToRight := true }
  | .ok (.setDdramAddr a) => { v with addr := some a }
  | .ok (.writeData ch) => v.store ch
  | .ok _ => View.unknown
  | .error _ => View.unknown

/-- The effect of one latched nibble. Until four-bit mode is known: three WAKE nibbles force the display "out of any prior
partial-command state", and the nibble 0x2 then "switches the controller into 4-bit bus mode" (R101, R102). After it
nibbles come in pairs, high first; a pair whose register select changes is none the block sends. -/
def View.latch (v : View) (x : Bool × Nibble) : View :=
  if v.fourBit then
    match v.half with
    | none => { v with half := some x }
    | some (rs, hi) =>
      if rs = x.1 then View.receive { v with half := none } rs (hi ++ x.2) else View.unknown
  else if x = (false, wakeNibble) then { v with wakes := v.wakes + 1 }
  else if x = (false, set4BitNibble) ∧ 3 ≤ v.wakes then { v with fourBit := true }
  else View.unknown

/-- What the display shows after a trace that began at reset: unknown after any failure. -/
def displayAfter (tr : List Event) : View :=
  if anyFailed tr then View.unknown else (latched tr).foldl View.latch View.unknown

end Sys2Proof.Machine
end

