-- ==== Sys2Proof/Machine/Micro.lean ====
section
/-! DEFINITION. The flat description of the operations (40_nibble_encoder.md R93): each operation denotes a finite list
of micro-operations, run until the first failing `TX`. The machine unfolds words layer by layer instead; "the two
descriptions give the same traces" (R93) is a statement about it, not a definition. -/

namespace Sys2Proof.Machine

/-- A micro-operation: `T b` or `D n` (R93). -/
inductive Micro where
  | tx (b : Byte)
  | wait (ms : Nat)
  deriving DecidableEq, Repr

/-- R93: `NIB(a)`. -/
def nib (a : Byte) : List Micro :=
  [.tx (a ||| cfg.bl ||| cfg.en), .wait cfg.tEnHigh, .tx ((a ||| cfg.bl) &&& ~~~cfg.en), .wait cfg.tEnLow]

/-- R93: `BYTE(v, m)`. -/
def bytePair (v m : Byte) : List Micro :=
  nib ((v &&& cfg.dataMask) ||| m) ++ nib (((v <<< 4) &&& cfg.dataMask) ||| m)

/-- 42_initialization.md R129: the whole micro-sequence of `initialize`, from its steps R121 to R127. -/
def initMicro : List Micro :=
  [.wait cfg.tPowerup]
    ++ (nib 0x30#8 ++ [.wait cfg.tWake1])
    ++ (nib 0x30#8 ++ [.wait cfg.tWake2])
    ++ (nib 0x30#8 ++ [.wait cfg.tWake3])
    ++ (nib 0x20#8 ++ [.wait cfg.t4Bit])
    ++ bytePair (functionSetByte cfg) 0#8
    ++ bytePair (displayControlByte cfg) 0#8
    ++ (bytePair (clearDisplayByte cfg) 0#8 ++ [.wait cfg.tClear])
    ++ bytePair (entryModeSetByte cfg) 0#8

/-- The micro-sequence of each operation (40_nibble_encoder.md R93, 41_display_commands.md R101 to R108,
42_initialization.md R129, 43_display_operations.md R130 to R132). -/
def micro : Instr → List Micro
  | .initialise => initMicro
  | .setCursor row col => bytePair (setDdramByte cfg (ddramAddr cfg row col)) 0#8
  | .printString text => text.flatMap (fun ch => bytePair ch cfg.rs)
  | .clear => bytePair (clearDisplayByte cfg) 0#8 ++ [.wait cfg.tClear]
  | .sendByte value m => bytePair value m
  | .sendNibble a => nib a
  | .wake => nib 0x30#8
  | .set4Bit => nib 0x20#8
  | .functionSet => bytePair (functionSetByte cfg) 0#8
  | .displayControl => bytePair (displayControlByte cfg) 0#8
  | .clearDisplay => bytePair (clearDisplayByte cfg) 0#8 ++ [.wait cfg.tClear]
  | .entryModeSet => bytePair (entryModeSetByte cfg) 0#8
  | .setDdramAddr a => bytePair (setDdramByte cfg a) 0#8
  | .writeData ch => bytePair ch cfg.rs
  | .frameEnHigh n r => [.tx (frameOf cfg true n r)]
  | .frameEnLow n r => [.tx (frameOf cfg false n r)]

/-- The run of a list from its first element (R93): a `D n` emits `DELAY(n)` and goes on; a `T b` emits the `TX` and goes
on if the answer is `ok`; if it is `fail` the run stops there and every later element is dropped. -/
def runMicro : List Micro → State → State × Status
  | [], s => (s, .ok)
  | .wait ms :: rest, s => runMicro rest (delay ms s)
  | .tx b :: rest, s =>
    match s.answerAt 0 with
    | .ok => runMicro rest (advance (memWrite cfg.i2cAddr b s))
    | .fail => (memWrite cfg.i2cAddr b s, .fail)

/-- The frames of a list of micro-operations, in order. -/
def microFrames : List Micro → List Byte
  | [] => []
  | .tx b :: rest => b :: microFrames rest
  | .wait _ :: rest => microFrames rest

/-- The waits of a list of micro-operations, in order. -/
def microWaits : List Micro → List Nat
  | [] => []
  | .tx _ :: rest => microWaits rest
  | .wait ms :: rest => ms :: microWaits rest

/-- The run of a list inside a running operation: on success the operation goes on, on a failure it is aborted
(60_exceptions.md R153). -/
def runWithin (l : List Micro) (s : State) : State :=
  match runMicro l s with
  | (t, .ok) => t
  | (t, .fail) => abort t

/-- The run of a whole operation from its acceptance: its list, then its successful end or the abort. -/
def runOperation (i : Instr) (s : State) : State :=
  match runMicro (micro i) s with
  | (t, .ok) => finish i t
  | (t, .fail) => abort t

/-- The micro-operations a list of remaining tasks still stands for. -/
def expand : List Task → List Micro
  | [] => []
  | .wait ms :: rest => .wait ms :: expand rest
  | .word w :: rest =>
    match decode w with
    | .ok i => micro i ++ expand rest
    | .error _ => expand rest

end Sys2Proof.Machine
end

