-- ==== Sys2Proof/Safety.lean ====
section
/-! DEFINITION. The terms claims are stated in: what holds of every state a run reaches, and what it means that a run gets
somewhere. -/

namespace Sys2Proof.Machine

/-! ### Runs -/

/-- Some number of steps leads from `s` to `t`, with no refusal on the way. -/
def RunsTo (s t : State) : Prop := ∃ k, Host.Core.run Sys2Proof.core k s = .next t

/-- At most `n` steps lead from `s` to `t`. -/
def RunsWithin (n : Nat) (s t : State) : Prop := ∃ k, k ≤ n ∧ Host.Core.run Sys2Proof.core k s = .next t

/-- No operation runs and none is being called (10_state.md R25). -/
def Quiet (s : State) : Prop := s.op = none ∧ s.todo = [] ∧ s.port = none

/-- The next `n` answers of the transport are `ok`. -/
def AnswersOk (n : Nat) (s : State) : Prop := ∀ k, k < n → s.answerAt k = .ok

/-- The next `n` answers are `ok` and the one after them is `fail`. -/
def FailsAfter (n : Nat) (s : State) : Prop := AnswersOk n s ∧ s.answerAt n = .fail

/-- The events a state has that an earlier one had not. -/
def eventsSince (s t : State) : List Event := t.trace.drop s.trace.length

/-- `T b` answered `ok`, in the notation of 30_encoding.md R79. -/
def txOk (b : Byte) : Event := .tx cfg.i2cAddr b cfg.timeoutMs .ok

/-- `T b !`, answered `fail`. -/
def txFail (b : Byte) : Event := .tx cfg.i2cAddr b cfg.timeoutMs .fail

/-- The events of one nibble argument whose two writes succeed (40_nibble_encoder.md R90). -/
def nibbleEvents (a : Byte) : List Event :=
  [txOk (a ||| 0x0C#8), .delay 1, txOk (a ||| 0x08#8), .delay 1]

/-- The events of one byte whose four writes succeed (40_nibble_encoder.md R91). -/
def byteEvents (value m : Byte) : List Event :=
  nibbleEvents ((value &&& 0xF0#8) ||| m) ++ nibbleEvents (((value <<< 4) &&& 0xF0#8) ||| m)

/-- The micro-operations as events of a failure-free run. -/
def microEvents : List Micro → List Event
  | [] => []
  | .tx b :: rest => txOk b :: microEvents rest
  | .wait ms :: rest => .delay ms :: microEvents rest

/-- The micro-operations as events of a run in which `k` writes succeed and the next one fails: nothing after it is
emitted (60_exceptions.md R153, R156). -/
def cutEvents : Nat → List Micro → List Event
  | _, [] => []
  | k, .wait ms :: rest => .delay ms :: cutEvents k rest
  | 0, .tx b :: _ => [txFail b]
  | k + 1, .tx b :: rest => txOk b :: cutEvents k rest

/-- The operation `i`, called in `s`, is accepted, emits exactly `es` between its `CALL` and its `RET ok`, and leaves the
block idle in `u`. -/
def CompletesWith (s : State) (i : Instr) (es : List Event) (u : State) : Prop :=
  ∃ t, exec i s = .next t ∧ RunsTo t u ∧ u.trace = s.trace ++ .call i :: es ++ [.ret .ok] ∧ Quiet u ∧ u.seq = 0

/-- The same with `RET fail`. -/
def FailsWith (s : State) (i : Instr) (es : List Event) (u : State) : Prop :=
  ∃ t, exec i s = .next t ∧ RunsTo t u ∧ u.trace = s.trace ++ .call i :: es ++ [.ret .fail] ∧ Quiet u ∧ u.seq = 0

/-! ### What holds of every state a run reaches -/

/-- 10_state.md R22: `cur_row <= ROWS-1 and cur_col <= COLS-1`. -/
abbrev CursorInGeometry (s : State) : Prop :=
  s.curRow.toNat ≤ cfg.rows - 1 ∧ s.curCol.toNat ≤ cfg.cols - 1

/-- 30_encoding.md R60, R75 (b), 40_nibble_encoder.md R92: backlight 1, read/write 0. -/
abbrev LegalFrame (f : Byte) : Prop := f &&& cfg.bl = cfg.bl ∧ f &&& cfg.rw = 0#8

/-- 20_memory.md R41 and R92 for one event: every `TX` carries the configured address and timeout, and a legal frame. -/
abbrev LegalEvent : Event → Prop
  | .tx addr b timeoutMs _ => addr = cfg.i2cAddr ∧ timeoutMs = cfg.timeoutMs ∧ LegalFrame b
  | .call _ => True
  | .delay _ => True
  | .ret _ => True

/-- Every event of the trace is legal. -/
abbrev LegalTrace (s : State) : Prop := ∀ e ∈ s.trace, LegalEvent e

/-- The lines: canonical form, only the expander's address, only legal frames (10_state.md R28, 20_memory.md R41). -/
abbrev LegalLines (s : State) : Prop :=
  Memory.wf s.lines ∧ ∀ x ∈ s.lines, x.1 = cfg.i2cAddr.toNat ∧ LegalFrame x.2

/-- 70_reset_and_hazards.md R186: the ghost flag says whether some `TX` of the trace has answered `fail`. -/
abbrev LinkTellsTrace (s : State) : Prop := s.linkOk = !anyFailed s.trace

/-- A remaining task stands for a well-formed internal instruction, or is a wait. -/
def Task.wf : Task → Bool
  | .wait _ => true
  | .word w =>
    match decode w with
    | .ok i => i.wf && !i.isHost
    | .error _ => false

/-- 10_state.md R24: `seq` is the index, in the running operation's micro-sequence, of the next micro-operation, and the
remaining tasks stand for exactly what follows it; when idle, nothing remains and `seq` is 0. -/
def SequencerAtSeq (s : State) : Prop :=
  match s.op with
  | none => s.todo = [] ∧ s.seq = 0
  | some i =>
    i.wf = true ∧ (∀ t ∈ s.todo, t.wf = true) ∧ s.seq ≤ (micro i).length ∧ expand s.todo = (micro i).drop s.seq

/-- 42_initialization.md R128, 43_display_operations.md R133: `fsm` is Initializing exactly while `initialize` runs, and
Ready while one of the other three runs. -/
def PhaseMatches (s : State) : Prop :=
  (s.fsm = .initializing ↔ s.op = some .initialise) ∧
    (∀ i, s.op = some i → i.isHost = true → i ≠ .initialise → s.fsm = .ready)

/-- What holds at reset and is kept by every step. -/
structure Inv (s : State) : Prop where
  cursor : CursorInGeometry s
  trace : LegalTrace s
  lines : LegalLines s
  link : LinkTellsTrace s
  sequencer : SequencerAtSeq s
  phase : PhaseMatches s

/-! ### The words the block forms -/

/-- The words the block itself forms while `op` runs (30_encoding.md R75, 41_display_commands.md R109): of the address
commands only those with an address of 20_memory.md R44, and XFER5 words inside `initialize` only. -/
def blockForms (op : Option Instr) : Code → Bool
  | .hostreq _ => false
  | .internal w | .xfer9 w =>
    w.getLsbD 8 || [0x28#8, 0x0C#8, 0x01#8, 0x06#8].contains (w.extractLsb' 0 8)
      || (w.extractLsb' 0 8 &&& 0xB0#8) == 0x80#8
  | .narg a => (a &&& 0x0E#8) == 0#8
  | .xfer5 w => op == some .initialise && (w == 0x03#5 || w == 0x02#5)
  | .frame f => (f &&& 0x0E#8) == 0x0C#8 || (f &&& 0x0E#8) == 0x08#8

/-- Every word that the running operation has ahead is one the block forms. -/
def FormsOnlyItsWords (s : State) : Prop := ∀ w, Task.word w ∈ s.todo → blockForms s.op w = true

end Sys2Proof.Machine
end

