-- ==== Sys2Proof/Certificates/Slice0/Obligations.lean ====
section
/-! DEFINITION. The statements about the machine, for the provers. -/

open Sys2Proof Sys2Proof.Machine

/-! ### Reset and encodings -/

/-- 10_state.md section 5: what reset leaves. The model's choices in it: the cursor's value is the spec's own choice
(92_eei_decisions.md D5, notes/assumptions/6.md); the ghost flag is the spec's recommendation (70_reset_and_hazards.md
R186, decision D14, notes/assumptions/19.md); `displayAfter` is the model's reading of a trace (notes/assumptions/14.md). -/
def Obligations.ResetIsUninitializedAndIdle : Prop :=
  State.reset.fsm = .uninitialized ∧ State.reset.curRow = 0#8 ∧ State.reset.curCol = 0#8 ∧ State.reset.seq = 0 ∧
  Quiet State.reset ∧ State.reset.trace = [] ∧ State.reset.linkOk = true ∧
  (∀ a, State.reset.lines.read a = none) ∧ displayAfter State.reset.trace = View.unknown

/-- 30_encoding.md section 3: words of every layer stand for the instruction the map gives them. The command bytes are
from general knowledge, not in the source (93_implementation_defined.md G1; notes/assumptions/10.md). -/
def Obligations.SpecWordsDecode : Prop :=
  decodeHostReq ⟨0#2, 0#8, 0#8, []⟩ = .initialise ∧
  decodeHostReq ⟨1#2, 5#8, 20#8, []⟩ = .setCursor 5#8 20#8 ∧
  decodeHostReq ⟨2#2, 0#8, 0#8, [0x48#8, 0x69#8]⟩ = .printString [0x48#8, 0x69#8] ∧
  decodeHostReq ⟨3#2, 0#8, 0#8, []⟩ = .clear ∧
  decode (.internal 0b101000001#9) = .ok (.sendByte 0x41#8 0x01#8) ∧
  decode (.narg 0b01000001#8) = .ok (.sendNibble 0x41#8) ∧
  decode (.xfer5 0b00011#5) = .ok .wake ∧
  decode (.xfer5 0b00010#5) = .ok .set4Bit ∧
  decode (.xfer9 0b000101000#9) = .ok .functionSet ∧
  decode (.xfer9 0b000001100#9) = .ok .displayControl ∧
  decode (.xfer9 0b000000001#9) = .ok .clearDisplay ∧
  decode (.xfer9 0b000000110#9) = .ok .entryModeSet ∧
  decode (.xfer9 0b011001111#9) = .ok (.setDdramAddr 0x4F#7) ∧
  decode (.xfer9 0b101000001#9) = .ok (.writeData 0x41#8) ∧
  decode (.frame 0b00111100#8) = .ok (.frameEnHigh 0x3#4 false) ∧
  decode (.frame 0b01001001#8) = .ok (.frameEnLow 0x4#4 true)

/-- Decoding an encoded well-formed instruction gives it back: no operand bit of any format is dropped. -/
def Obligations.DecodeOfEncode : Prop :=
  ∀ i : Instr, i.wf = true → decode (encode i) = .ok i

/-- A word that decodes gives a well-formed instruction, and is that instruction's one word, but for the host request's
fields that the operation ignores (30_encoding.md section 1, R65). -/
def Obligations.EncodeOfDecode : Prop :=
  ∀ (w : Code) (i : Instr), decode w = .ok i → i.wf = true ∧ (w.canonical = true → encode i = w)

/-- 30_encoding.md R60, R61, R64, R73: the words that stand for an instruction are exactly those of the rows of the
operation map, whose SET_DDRAM_ADDR takes any 7-bit address; the block forms fewer of them (`BlockFormsOnlyItsWords`).
That a word of no row is rejected is the model's reading of R75 (DEDUCED, notes/assumptions/15.md: "the block decodes
nothing"). The command bytes are from general knowledge (93_implementation_defined.md G1; notes/assumptions/10.md). -/
def Obligations.OnlyWordsOfTheMapDecode : Prop :=
  (∀ a : Byte, decodes (.narg a) = true ↔ a &&& 0x0E#8 = 0#8) ∧
  (∀ f : Byte, decodes (.frame f) = true ↔ f &&& 0x0E#8 = 0x0C#8 ∨ f &&& 0x0E#8 = 0x08#8) ∧
  (∀ w : BitVec 5, decodes (.xfer5 w) = true ↔ w = 0x03#5 ∨ w = 0x02#5) ∧
  (∀ b : Byte, decodes (.xfer9 (0#1 ++ b)) = true ↔
    b ∈ [0x28#8, 0x0C#8, 0x01#8, 0x06#8] ∨ b &&& 0x80#8 = 0x80#8) ∧
  (∀ b : Byte, decodes (.xfer9 (1#1 ++ b)) = true)

/-- 30_encoding.md R68, R69, R72: the nibble split, the frame pair, and the assembly of the command bytes. The bytes 0x80,
0x28, 0x0C, 0x01 and 0x06 are from general knowledge, not in the source (41_display_commands.md R100, decision D11,
93_implementation_defined.md G1; notes/assumptions/10.md). -/
def Obligations.FieldsAreAssembledAsSpecified : Prop :=
  (∀ value m : Byte, m = 0x00#8 ∨ m = 0x01#8 →
    nibbleHi cfg value m = (value &&& 0xF0#8) ||| m ∧
    nibbleLo cfg value m = ((value <<< 4) &&& 0xF0#8) ||| m ∧
    (nibbleHi cfg value m).extractLsb' 4 4 = value.extractLsb' 4 4 ∧
    (nibbleLo cfg value m).extractLsb' 4 4 = value.extractLsb' 0 4 ∧
    (nibbleHi cfg value m).extractLsb' 1 3 = 0#3 ∧ (nibbleLo cfg value m).extractLsb' 1 3 = 0#3 ∧
    (nibbleHi cfg value m).getLsbD 0 = m.getLsbD 0 ∧ (nibbleLo cfg value m).getLsbD 0 = m.getLsbD 0) ∧
  (∀ a : Byte, a &&& 0x0E#8 = 0#8 →
    frameHi cfg a = a ||| 0x0C#8 ∧ frameLo cfg a = a ||| 0x08#8 ∧
    frameLo cfg a = frameHi cfg a &&& ~~~0x04#8) ∧
  (∀ a : DdramAddr, setDdramByte cfg a = 0x80#8 ||| a.setWidth 8 ∧
    (setDdramByte cfg a).toNat = 0x80 + a.toNat ∧ (setDdramByte cfg a).extractLsb' 0 7 = a) ∧
  functionSetByte cfg = 0x28#8 ∧ displayControlByte cfg = 0x0C#8 ∧ clearDisplayByte cfg = 0x01#8 ∧
  entryModeSetByte cfg = 0x06#8

/-- 30_encoding.md R71: for every admitted configuration the DDRAM address is the row offset plus the column, below 0x80;
with the defaults it is the column in row 0 and 0x40 plus the column in row 1. -/
def Obligations.DdramAddressFitsSevenBits : Prop :=
  (∀ (c : Config) (row col : Byte), c.WellFormed →
    ∃ o, c.rowOffset[min row.toNat (c.rows - 1)]? = some o ∧
      (ddramAddr c row col).toNat = o + min col.toNat (c.cols - 1) ∧ o + min col.toNat (c.cols - 1) ≤ 0x7F) ∧
  (∀ row col : Byte, (ddramAddr cfg row col).toNat =
    if row = 0#8 then min col.toNat 15 else 0x40 + min col.toNat 15)

/-- The configuration of this hardware is admitted (00_scope.md R6). -/
def Obligations.DefaultConfigurationIsAdmitted : Prop := cfg.WellFormed

/-! ### What a step does -/

/-- A step runs the decoded instruction: the next word of a running operation, the request at the port of an idle block,
or, when there is none, the next request of the host's script. What the step adds is taking the word away. -/
def Obligations.StepRunsTheDecodedInstruction : Prop :=
  (∀ (s : State) (w : Code) (rest : List Task) (i : Instr),
    s.port = none → s.todo = .word w :: rest → decode w = .ok i → step s = exec i { s with todo := rest }) ∧
  (∀ (s : State) (r : HostReq) (i : Instr), s.op = none → s.todo = [] → s.port = some r →
    decode (.hostreq r) = .ok i → step s = exec i { s with port := none }) ∧
  (∀ (s : State) (r : HostReq) (rest : List HostReq) (i : Instr), Quiet s → s.script = r :: rest →
    decode (.hostreq r) = .ok i → step s = exec i { s with script := rest })

/-- The other steps: a wait, an idle block with nothing asked, a word that stands for nothing, and a call made while an
operation runs, which is refused (60_exceptions.md section 3, decision D8). That a word that stands for nothing is refused is
the model's reading of 30_encoding.md R75 (DEDUCED, notes/assumptions/15.md); that an idle block stays is
notes/assumptions/22.md. -/
def Obligations.StepWithoutAnInstruction : Prop :=
  (∀ (s : State) (ms : Nat) (rest : List Task), s.port = none → s.todo = .wait ms :: rest →
    step s = .next { s with todo := rest, seq := s.seq + 1, trace := s.trace ++ [.delay ms] }) ∧
  (∀ s : State, Quiet s → s.script = [] → step s = .next s) ∧
  (∀ (s : State) (w : Code) (rest : List Task) (e : DecodeError),
    s.port = none → s.todo = .word w :: rest → decode w = .error e → step s = .refused (.undecodable e)) ∧
  (∀ (s : State) (r : HostReq), busy s = true → s.port = some r → step s = .refused .callWhileBusy)

/-- 10_state.md section 2 (the cursor writes are the spec's own choice, 92_eei_decisions.md D6) and
42_initialization.md R128: when the micro-sequence has run out, the operation writes its results and returns `ok`;
nothing else changes. That this is a step of its own is the model's choice (notes/assumptions/21.md). -/
def Obligations.OperationEndWritesResults : Prop :=
  ∀ (s : State) (i : Instr), s.op = some i → s.todo = [] → s.port = none →
    ∃ t, step s = .next t ∧
      t = { s with op := none, seq := 0, trace := s.trace ++ [.ret .ok], fsm := t.fsm,
                   curRow := t.curRow, curCol := t.curCol } ∧
      t.fsm = (if i = .initialise then .ready else s.fsm) ∧
      match i with
      | .initialise | .clear => t.curRow = 0#8 ∧ t.curCol = 0#8
      | .setCursor row col => t.curRow.toNat = min row.toNat 1 ∧ t.curCol.toNat = min col.toNat 15
      | _ => t.curRow = s.curRow ∧ t.curCol = s.curCol

/-- 43_display_operations.md section 4 (decisions D7, D8): the gate. A host operation is refused while an operation runs,
and in any state but the one it needs; the table of states is `admits`. That a call wrong in both ways is refused as
`callWhileBusy` is the model's choice (DESIGN CHOICE, notes/assumptions/8.md; R133 names the test of `fsm` first). -/
def Obligations.HostOperationsAreGated : Prop :=
  (∀ (i : Instr) (s : State), i.isHost = true → busy s = true → exec i s = .refused .callWhileBusy) ∧
  (∀ (i : Instr) (s : State), i.isHost = true → busy s = false → admits s.fsm i = false →
    exec i s = .refused (.wrongState s.fsm)) ∧
  (∀ f : Fsm, (admits f .initialise = true ↔ f = .uninitialized) ∧ (admits f .clear = true ↔ f = .ready) ∧
    (∀ row col, admits f (.setCursor row col) = true ↔ f = .ready) ∧
    (∀ text, admits f (.printString text) = true ↔ f = .ready))

/-- 30_encoding.md R61, R62, R75: a nibble argument with a bit of 3:1 set, and a mode flag that is neither 0x00 nor `RS`,
have no meaning: those forms of SENDNIBBLE and SENDBYTE stop by name. -/
def Obligations.FormsWithoutMeaningAreRefused : Prop :=
  (∀ (a : Byte) (s : State), a &&& 0x0E#8 ≠ 0#8 → exec (.sendNibble a) s = .refused (.nargWithoutMeaning a)) ∧
  (∀ (value m : Byte) (s : State), m ≠ 0x00#8 → m ≠ 0x01#8 →
    exec (.sendByte value m) s = .refused (.modeFlagWithoutMeaning m))

/-! ### The operations as lists of micro-operations -/

/-- 40_nibble_encoder.md section 4: a host operation that is called in the state it needs is accepted, changes nothing at
acceptance but what is named here, and its run by steps ends in the state that the run of its micro-sequence gives: "the
two descriptions give the same traces". -/
def Obligations.HostOperationsRunTheirLists : Prop :=
  ∀ (i : Instr) (s : State), i.isHost = true → Quiet s → admits s.fsm i = true →
    ∃ t, exec i s = .next t ∧
      t = { s with op := some i, todo := t.todo, seq := 0, trace := s.trace ++ [.call i],
                   fsm := if i = .initialise then .initializing else s.fsm } ∧
      RunsTo t (runOperation i t)

/-- 40_nibble_encoder.md section 4, for SENDBYTE, SENDNIBBLE, the words sent to the display and the frames: whatever runs
around it, the instruction answers a next state, from which steps lead to where the run of its micro-sequence leads:
back to what remained to be done, or to the abort. -/
def Obligations.InternalOperationsRunTheirLists : Prop :=
  ∀ (i : Instr) (s : State), i.isHost = false → i.wf = true → s.port = none →
    ∃ t, exec i s = .next t ∧ RunsTo t (runWithin (micro i) s)

/-- 40_nibble_encoder.md section 4: the run of a list emits, in order, each of its elements up to the first failing
write, and advances the sequencer once for each that is done. -/
def Obligations.ListsRunToTheFirstFailingWrite : Prop :=
  ∀ (l : List Micro) (s : State),
    (AnswersOk (microFrames l).length s →
      (runMicro l s).2 = .ok ∧ (runMicro l s).1.trace = s.trace ++ microEvents l ∧
      (runMicro l s).1.seq = s.seq + l.length) ∧
    (∀ k, k < (microFrames l).length → FailsAfter k s →
      (runMicro l s).2 = .fail ∧ (runMicro l s).1.trace = s.trace ++ cutEvents k l)

/-! ### The NibbleEncoder -/

/-- 40_nibble_encoder.md section 1: `sendNibble(a)` inside whatever runs. With both writes answered `ok` it emits the
frame with enable set, 1 ms, the same frame with enable cleared, 1 ms, and returns; with a failing write it emits nothing
after it and the operation around it fails (no wait after it: 92_eei_decisions.md D12). -/
def Obligations.SendNibblePulsesEnable : Prop :=
  ∀ (s : State) (a : Byte), a &&& 0x0E#8 = 0#8 → s.port = none →
    ∃ t, exec (.sendNibble a) s = .next t ∧
      (AnswersOk 2 s → ∃ u, RunsTo t u ∧
        u.trace = s.trace ++ [txOk (a ||| 0x0C#8), .delay 1, txOk (a ||| 0x08#8), .delay 1] ∧
        u.todo = s.todo ∧ u.op = s.op ∧ u.fsm = s.fsm ∧ u.curRow = s.curRow ∧ u.curCol = s.curCol ∧
        u.seq = s.seq + 4) ∧
      (FailsAfter 0 s → ∃ u, RunsTo t u ∧ u.trace = s.trace ++ [txFail (a ||| 0x0C#8), .ret .fail] ∧
        u.todo = [] ∧ u.op = none) ∧
      (FailsAfter 1 s → ∃ u, RunsTo t u ∧
        u.trace = s.trace ++ [txOk (a ||| 0x0C#8), .delay 1, txFail (a ||| 0x08#8), .ret .fail] ∧
        u.todo = [] ∧ u.op = none)

/-- 40_nibble_encoder.md R91, R95: `sendByte(value, m)` makes exactly two `sendNibble` calls, the high nibble's first, and
emits their four frames, each followed by a wait of 1 ms; when its k-th write fails it emits exactly k writes, the second
nibble is not attempted after a failure in the first, and the failure is passed up; every frame has backlight 1 and
read/write 0. That no wait follows a failing write is the spec's own choice (92_eei_decisions.md D12); that the two calls
are tasks ahead is the model's layering (DESIGN CHOICE, notes/assumptions/1.md). -/
def Obligations.SendByteSplitsHighNibbleFirst : Prop :=
  ∀ (s : State) (value m : Byte), m = 0x00#8 ∨ m = 0x01#8 → s.port = none →
    ∃ t, exec (.sendByte value m) s = .next t ∧
      t = { s with todo := .word (.narg ((value &&& 0xF0#8) ||| m))
                    :: .word (.narg (((value <<< 4) &&& 0xF0#8) ||| m)) :: s.todo } ∧
      (AnswersOk 4 s → ∃ u, RunsTo t u ∧
        u.trace = s.trace ++ nibbleEvents ((value &&& 0xF0#8) ||| m)
          ++ nibbleEvents (((value <<< 4) &&& 0xF0#8) ||| m) ∧
        (framesSent (eventsSince s u)).length = 4 ∧
        (∀ b ∈ framesSent (eventsSince s u), b &&& 0x08#8 = 0x08#8 ∧ b &&& 0x02#8 = 0#8) ∧
        u.todo = s.todo ∧ u.op = s.op ∧ u.fsm = s.fsm ∧ u.curRow = s.curRow ∧ u.curCol = s.curCol) ∧
      (∀ k, k < 4 → FailsAfter k s → ∃ u, RunsTo t u ∧
        u.trace = s.trace ++ cutEvents k (bytePair value m) ++ [.ret .fail] ∧
        (framesSent (eventsSince s u)).length = k + 1 ∧
        (∀ b ∈ framesSent (eventsSince s u), b &&& 0x08#8 = 0x08#8 ∧ b &&& 0x02#8 = 0#8) ∧
        u.todo = [] ∧ u.op = none)

/-- 41_display_commands.md R101 to R108: each of the eight words sent to the display, inside whatever runs, with every
write answered `ok`: exactly these events, nothing else changed but the lines and the transport's turn, and back to what
remained to be done. The command bytes are from general knowledge, not in the source (93_implementation_defined.md G1;
notes/assumptions/10.md). -/
def Obligations.DisplayWordsSendTheirBytes : Prop :=
  ∀ (s : State) (a : DdramAddr) (ch : Byte), s.port = none →
    ∀ x ∈ [ (Instr.wake, nibbleEvents 0x30#8),
            (Instr.set4Bit, nibbleEvents 0x20#8),
            (Instr.functionSet, byteEvents 0x28#8 0#8),
            (Instr.displayControl, byteEvents 0x0C#8 0#8),
            (Instr.clearDisplay, byteEvents 0x01#8 0#8 ++ [.delay 2]),
            (Instr.entryModeSet, byteEvents 0x06#8 0#8),
            (Instr.setDdramAddr a, byteEvents (0x80#8 ||| a.setWidth 8) 0#8),
            (Instr.writeData ch, byteEvents ch 0x01#8) ],
      ∃ t, exec x.1 s = .next t ∧
        (AnswersOk (framesSent x.2).length s → ∃ u, RunsTo t u ∧
          u = { s with seq := s.seq + x.2.length, trace := s.trace ++ x.2, lines := u.lines,
                       answers := u.answers, draws := s.draws + (framesSent x.2).length } ∧
          (∀ b, b ≠ 0x27 → u.lines.read b = s.lines.read b))

/-- 20_memory.md R42: a frame whose write is answered `ok` becomes the state of the expander's eight lines; every other
address reads as before, and nothing else changes but the sequencer, the trace and the transport's own turn. -/
def Obligations.FrameWriteSetsTheLines : Prop :=
  ∀ (s : State) (n : Nibble) (r e : Bool), s.answerAt 0 = .ok →
    ∃ t, exec (if e then .frameEnHigh n r else .frameEnLow n r) s = .next t ∧
      t.lines.read 0x27 = some (frameOf cfg e n r) ∧ (∀ a, a ≠ 0x27 → t.lines.read a = s.lines.read a) ∧
      t = { s with seq := s.seq + 1, trace := s.trace ++ [txOk (frameOf cfg e n r)], lines := t.lines,
                   answers := s.answers.tail, draws := s.draws + 1 }

/-- 60_exceptions.md R153, 10_state.md R28: a frame whose write is answered `fail`: the abort. The lines are unknown,
every other address reads as before, `seq` is idle, Initializing becomes Faulted and no other state changes, the cursor is
kept, `RET fail`. That the lines are unknown is R28 (derived there; notes/assumptions/7.md); the ghost flag is R186, decision
D14 (notes/assumptions/19.md); that the write and its `RET fail` are one step is notes/assumptions/21.md. -/
def Obligations.FailedFrameWriteAborts : Prop :=
  ∀ (s : State) (n : Nibble) (r e : Bool), Memory.wf s.lines → s.answerAt 0 = .fail →
    ∃ t, exec (if e then .frameEnHigh n r else .frameEnLow n r) s = .next t ∧
      t.lines.read 0x27 = none ∧ (∀ a, a ≠ 0x27 → t.lines.read a = s.lines.read a) ∧
      t = { s with op := none, todo := [], seq := 0,
                   fsm := if s.fsm = .initializing then .faulted else s.fsm,
                   trace := s.trace ++ [txFail (frameOf cfg e n r), .ret .fail], lines := t.lines,
                   linkOk := false, answers := s.answers.tail, draws := s.draws + 1 }

/-- The frame of the instructions that only unfold (SENDBYTE, SENDNIBBLE and the words sent to the display): they leave
everything as it is but the tasks ahead, which they only add to; every address reads as before. The tasks ahead are the
model's layering (notes/assumptions/1.md). -/
def Obligations.UnfoldingChangesOnlyTheTasksAhead : Prop :=
  ∀ (i : Instr) (s t : State), i.isHost = false → (∀ n r, i ≠ .frameEnHigh n r) → (∀ n r, i ≠ .frameEnLow n r) →
    exec i s = .next t → t = { s with todo := t.todo } ∧ (∃ ts, ts ≠ [] ∧ t.todo = ts ++ s.todo) ∧
      (∀ a, t.lines.read a = s.lines.read a)

/-! ### The host operations -/

/-- 42_initialization.md section 4: `initialize` with every write answered `ok`: the seven steps in order with their
waits, then Ready and the cursor at (0,0), which is the spec's own choice (10_state.md R22, 92_eei_decisions.md D6;
notes/assumptions/12.md). The command bytes 0x28, 0x0C, 0x01, 0x06 are from general knowledge, not in the
source (93_implementation_defined.md G1; notes/assumptions/10.md). -/
def Obligations.InitialiseIssuesTheSevenSteps : Prop :=
  ∀ s : State, Quiet s → s.fsm = .uninitialized → AnswersOk 24 s →
    ∃ u, CompletesWith s .initialise
        ([.delay 50]
          ++ nibbleEvents 0x30#8 ++ [.delay 5] ++ nibbleEvents 0x30#8 ++ [.delay 1]
          ++ nibbleEvents 0x30#8 ++ [.delay 1]
          ++ nibbleEvents 0x20#8 ++ [.delay 1]
          ++ byteEvents 0x28#8 0#8
          ++ byteEvents 0x0C#8 0#8
          ++ byteEvents 0x01#8 0#8 ++ [.delay 2]
          ++ byteEvents 0x06#8 0#8) u ∧
      u.fsm = .ready ∧ u.curRow = 0#8 ∧ u.curCol = 0#8 ∧
      framesSent (eventsSince s u) =
        [0x3C#8, 0x38#8, 0x3C#8, 0x38#8, 0x3C#8, 0x38#8, 0x2C#8, 0x28#8,
         0x2C#8, 0x28#8, 0x8C#8, 0x88#8, 0x0C#8, 0x08#8, 0xCC#8, 0xC8#8,
         0x0C#8, 0x08#8, 0x1C#8, 0x18#8, 0x0C#8, 0x08#8, 0x6C#8, 0x68#8] ∧
      leastWait (eventsSince s u) = 84

/-- 43_display_operations.md section 1: `setCursor` saturates both operands, sends the address command and sets the logical
cursor. The cursor write is the spec's own choice (decision D6, notes/assumptions/12.md); bit 7 of the command is from
general knowledge (93_implementation_defined.md G1, notes/assumptions/10.md). -/
def Obligations.SetCursorSendsTheAddress : Prop :=
  ∀ (s : State) (row col : Byte), Quiet s → s.fsm = .ready → AnswersOk 4 s →
    ∃ u, CompletesWith s (.setCursor row col)
        (byteEvents (0x80#8 ||| BitVec.ofNat 8 ((if row = 0#8 then 0 else 0x40) + min col.toNat 15)) 0#8) u ∧
      u.fsm = .ready ∧ u.curRow.toNat = min row.toNat 1 ∧ u.curCol.toNat = min col.toNat 15

/-- 43_display_operations.md section 1: an out-of-range operand is the last index, each on its own. From every state a
request and its saturated one have the same effect but for the operands named in the `CALL`: the same micro-sequence, and
in a Ready idle block, whatever the transport answers, the same events and the same state at the end (the cursor with it,
92_eei_decisions.md D6); elsewhere the same refusal. -/
def Obligations.SetCursorSaturates : Prop :=
  ∀ row col : Byte, ∃ row' col' : Byte, row'.toNat = min row.toNat 1 ∧ col'.toNat = min col.toNat 15 ∧
    micro (.setCursor row col) = micro (.setCursor row' col') ∧
    (∀ s : State, busy s = true ∨ s.fsm ≠ .ready → exec (.setCursor row col) s = exec (.setCursor row' col') s) ∧
    (∀ s : State, Quiet s → s.fsm = .ready →
      ∃ es t t' u u', exec (.setCursor row col) s = .next t ∧ exec (.setCursor row' col') s = .next t' ∧
        RunsTo t u ∧ RunsTo t' u' ∧ Quiet u ∧ Quiet u' ∧ (∃ r, es.getLast? = some (.ret r)) ∧
        eventsSince s u = .call (.setCursor row col) :: es ∧
        eventsSince s u' = .call (.setCursor row' col') :: es ∧ u' = { u with trace := u'.trace }) ∧
    (row = 5#8 → col = 20#8 → row' = 1#8 ∧ col' = 15#8 ∧ (ddramAddr cfg row col).toNat = 0x4F)

/-- 43_display_operations.md section 2: `printString` sends each character as a data byte, first to last, none special,
and leaves the logical cursor; the empty text emits nothing. -/
def Obligations.PrintStringSendsEachCharacter : Prop :=
  ∀ (s : State) (text : List Byte), Quiet s → s.fsm = .ready → AnswersOk (4 * text.length) s →
    ∃ u, CompletesWith s (.printString text) (text.flatMap (fun ch => byteEvents ch 0x01#8)) u ∧
      u.fsm = .ready ∧ u.curRow = s.curRow ∧ u.curCol = s.curCol ∧
      (text = [] → u.lines = s.lines ∧ u.draws = s.draws)

/-- 43_display_operations.md section 3: `clear` sends the clear command and returns only after the 2 ms wait; the cursor is
homed. The cursor write is the spec's own choice (decision D6, notes/assumptions/12.md); the command byte is from general
knowledge (93_implementation_defined.md G1, notes/assumptions/10.md). -/
def Obligations.ClearWaitsBeforeReturning : Prop :=
  ∀ s : State, Quiet s → s.fsm = .ready → AnswersOk 4 s →
    ∃ u, CompletesWith s .clear (byteEvents 0x01#8 0#8 ++ [.delay 2]) u ∧
      u.fsm = .ready ∧ u.curRow = 0#8 ∧ u.curCol = 0#8

/-- 60_exceptions.md R153, R156: an operation whose (k+1)-th write fails has emitted everything before that write, that
write, and nothing after it; it returns `fail` at once; Initializing becomes Faulted, Ready stays (R155, decision D14); the
cursor is kept; the lines are unknown (10_state.md R28, notes/assumptions/7.md). The ghost flag is R186, decision D14
(notes/assumptions/19.md). -/
def Obligations.OperationStopsAtItsFailingWrite : Prop :=
  ∀ (i : Instr) (s : State) (k : Nat), i.isHost = true → Quiet s → admits s.fsm i = true → Memory.wf s.lines →
    k < (microFrames (micro i)).length → FailsAfter k s →
    ∃ u, FailsWith s i (cutEvents k (micro i)) u ∧
      (framesSent (eventsSince s u)).length = k + 1 ∧
      u.fsm = (if i = .initialise then .faulted else s.fsm) ∧
      u.curRow = s.curRow ∧ u.curCol = s.curCol ∧ u.lines.read 0x27 = none ∧ u.linkOk = false

/-- 70_reset_and_hazards.md section 5, the table of least durations: how many writes and waits each operation has, and the
least time its waits take. -/
def Obligations.LeastDurations : Prop :=
  ((microFrames (micro .initialise)).length = 24 ∧ (microWaits (micro .initialise)).length = 30 ∧
    (microWaits (micro .initialise)).sum = 84) ∧
  ((microFrames (micro .clear)).length = 4 ∧ (microWaits (micro .clear)).length = 5 ∧
    (microWaits (micro .clear)).sum = 6) ∧
  (∀ row col : Byte, (microFrames (micro (.setCursor row col))).length = 4 ∧
    microWaits (micro (.setCursor row col)) = [1, 1, 1, 1]) ∧
  (∀ text : List Byte, (microFrames (micro (.printString text))).length = 4 * text.length ∧
    (microWaits (micro (.printString text))).length = 4 * text.length ∧
    (microWaits (micro (.printString text))).sum = 4 * text.length) ∧
  (∀ a : Byte, (microFrames (micro (.sendNibble a))).length = 2 ∧ microWaits (micro (.sendNibble a)) = [1, 1]) ∧
  (∀ value m : Byte, (microFrames (micro (.sendByte value m))).length = 4 ∧
    microWaits (micro (.sendByte value m)) = [1, 1, 1, 1])

/-- 43_display_operations.md section 4: an accepted operation always ends, whatever the transport answers, within a number
of steps that only its operands fix, and its last event is its `RET`. That every write is answered and every wait ends is a
premise of the model (notes/assumptions/2.md, 9.md); the count of steps is the model's layering (notes/assumptions/1.md). -/
def Obligations.AcceptedOperationsEnd : Prop :=
  ∀ (i : Instr) (s : State), i.isHost = true → Quiet s → admits s.fsm i = true →
    ∃ t u, exec i s = .next t ∧ Quiet u ∧ (∃ r, u.trace.getLast? = some (.ret r)) ∧
      RunsWithin (match i with
        | .initialise => 79
        | .setCursor _ _ => 13
        | .printString text => 12 * text.length + 1
        | .clear => 14
        | _ => 0) t u

/-- 43_display_operations.md R135: the events of a call depend only on its operands and the transport's answers, never on
earlier calls: two idle blocks with the same answers ahead emit the same events and return the same result. -/
def Obligations.CallsAreIndependentOfHistory : Prop :=
  ∀ (i : Instr) (s₁ s₂ : State), i.isHost = true → Quiet s₁ → Quiet s₂ →
    admits s₁.fsm i = true → admits s₂.fsm i = true → (∀ k, s₁.answerAt k = s₂.answerAt k) →
    ∃ t₁ t₂ u₁ u₂, exec i s₁ = .next t₁ ∧ exec i s₂ = .next t₂ ∧ RunsTo t₁ u₁ ∧ RunsTo t₂ u₂ ∧
      Quiet u₁ ∧ Quiet u₂ ∧ eventsSince s₁ u₁ = eventsSince s₂ u₂ ∧ (∃ r, (eventsSince s₁ u₁).getLast? = some (.ret r))

/-! ### Rules about every step -/

/-- 20_memory.md R41 and 30_encoding.md R60: every write carries the one address and the one timeout, and every frame is
one of the two patterns: the nibble in bits 7:4, backlight 1 in bit 3, enable in bit 2, read/write 0 in bit 1, register
select in bit 0. -/
def Obligations.EveryWriteIsAFrameToTheExpander : Prop :=
  (∀ (s t : State) (addr : DevAddr) (b : Byte) (ms : Nat) (a : Status), step s = .next t →
    Event.tx addr b ms a ∈ eventsSince s t →
    addr = 0x27#7 ∧ ms = 1000 ∧ (b &&& 0x0E#8 = 0x0C#8 ∨ b &&& 0x0E#8 = 0x08#8)) ∧
  (∀ (e : Bool) (n : Nibble) (r : Bool), (frameOf cfg e n r).extractLsb' 4 4 = n ∧
    (frameOf cfg e n r).getLsbD 3 = true ∧ (frameOf cfg e n r).getLsbD 2 = e ∧
    (frameOf cfg e n r).getLsbD 1 = false ∧ (frameOf cfg e n r).getLsbD 0 = r) ∧
  cfg.bl = 0x08#8 ∧ cfg.en = 0x04#8 ∧ cfg.rw = 0x02#8 ∧ cfg.rs = 0x01#8

/-- 20_memory.md section 6: one event at a time. A step only adds to the trace, at most one write, and after a failing
write nothing but its `RET fail`, with the block idle. What one step holds is the model's choice (notes/assumptions/1.md and
21.md). -/
def Obligations.OneOutstandingWrite : Prop :=
  ∀ s t : State, step s = .next t →
    ∃ es, t.trace = s.trace ++ es ∧ (framesSent es).length ≤ 1 ∧ t.draws = s.draws + (framesSent es).length ∧
      (anyFailed es = true → ∃ b, es = [txFail b, .ret .fail] ∧ t.op = none ∧ t.todo = [] ∧ t.seq = 0)

/-- 20_memory.md R43: the operations `initialize`, `setCursor` and `clear` write the display's instruction register only,
and `printString` its data register only: the register-select bit of every frame they emit. -/
def Obligations.OnlyPrintStringWritesTheDataRegister : Prop :=
  ∀ (s t : State) (i : Instr), Inv s → s.op = some i → i.isHost = true → step s = .next t →
    ∀ b ∈ framesSent (eventsSince s t), (b.getLsbD 0 = true ↔ ∃ text, i = .printString text)

/-- 10_state.md section 2 (R21; the codes are the spec's own choice, 92_eei_decisions.md D4): the only changes of `fsm`,
and when each happens. The sequencer position is the spec's own device (R24, decision D19). -/
def Obligations.OnlyThreeStateTransitions : Prop :=
  (∀ s t : State, Inv s → step s = .next t →
    t.fsm = s.fsm ∨
    (s.fsm = .uninitialized ∧ t.fsm = .initializing ∧ eventsSince s t = [.call .initialise]) ∨
    (s.fsm = .initializing ∧ t.fsm = .ready ∧ s.seq = (micro .initialise).length ∧ eventsSince s t = [.ret .ok]) ∨
    (s.fsm = .initializing ∧ t.fsm = .faulted ∧ ∃ b, eventsSince s t = [txFail b, .ret .fail])) ∧
  (fsmCode .uninitialized, fsmCode .initializing, fsmCode .ready, fsmCode .faulted) = (0#2, 1#2, 2#2, 3#2)

/-- 60_exceptions.md R154: a failing write during `initialize` makes the block Faulted; no step leaves Faulted, and in it
every call is refused. -/
def Obligations.FaultedIsTerminal : Prop :=
  (∀ s t : State, Inv s → s.fsm = .initializing → step s = .next t → anyFailed (eventsSince s t) = true →
    t.fsm = .faulted ∧ (eventsSince s t).getLast? = some (.ret .fail)) ∧
  (∀ s t : State, Inv s → s.fsm = .faulted → step s = .next t → t.fsm = .faulted) ∧
  (∀ (s : State) (i : Instr), s.fsm = .faulted → i.isHost = true →
    exec i s = .refused (.wrongState .faulted) ∨ exec i s = .refused .callWhileBusy)

/-- 10_state.md section 2 (R22, decision D6): the logical cursor is written only at the successful end of `initialize`,
`setCursor` and `clear`. -/
def Obligations.CursorWrittenOnlyAtSuccess : Prop :=
  ∀ s t : State, step s = .next t →
    (t.curRow = s.curRow ∧ t.curCol = s.curCol) ∨
    (s.todo = [] ∧ t.trace = s.trace ++ [.ret .ok] ∧
      ((t.curRow = 0#8 ∧ t.curCol = 0#8 ∧ (s.op = some .initialise ∨ s.op = some .clear)) ∨
       ∃ row col, s.op = some (.setCursor row col) ∧
        t.curRow.toNat = min row.toNat 1 ∧ t.curCol.toNat = min col.toNat 15))

/-- 70_reset_and_hazards.md section 4 (R186, decision D14; notes/assumptions/19.md): the ghost flag falls with the first
failing write and never rises again. -/
def Obligations.LinkFlagFallsForGood : Prop :=
  ∀ s t : State, step s = .next t → t.linkOk = (s.linkOk && !anyFailed (eventsSince s t))

/-- 70_reset_and_hazards.md section 5 (R194): a call is taken from the host's script only when no operation runs, and
each step takes at most one. The script is the model's own input (notes/assumptions/3.md). -/
def Obligations.ScriptedCallsWaitForTheReturn : Prop :=
  ∀ s t : State, step s = .next t →
    t.script = s.script ∨
    (Quiet s ∧ ∃ r, s.script = r :: t.script ∧ eventsSince s t = [.call (decodeHostReq r)])

/-- The rules named in `Inv`: the invariant holds at reset. Its clauses on the cursor, the sequencer and the ghost flag rest
on the spec's own choices (92_eei_decisions.md D5, D19, D14; notes/assumptions/6.md, 1.md, 19.md). -/
def Obligations.InvariantHoldsAtReset : Prop := Inv State.reset

/-- Every step keeps the invariant: the cursor inside the geometry, only legal writes in the trace, the lines in canonical
form, the ghost flag true to the trace, the sequencer at its place in the running operation's micro-sequence, and `fsm` in
step with the operation that runs. Its clauses on the cursor, the sequencer and the ghost flag rest on the spec's own choices
(92_eei_decisions.md D6, D19, D14; notes/assumptions/12.md, 1.md, 19.md). -/
def Obligations.EveryStepKeepsTheInvariant : Prop :=
  ∀ s t : State, Inv s → step s = .next t → Inv t

/-! ### What the display sees -/

/-- 40_nibble_encoder.md section 5 (R94): what the display latches of the frames that a successful `sendNibble` and a
successful `sendByte` emit, run inside whatever runs: the one nibble; the high nibble, then the low nibble; each with the
register select of the mode flag. -/
def Obligations.ByteIsLatchedHighNibbleFirst : Prop :=
  (∀ (s : State) (a : Byte), a &&& 0x0E#8 = 0#8 → s.port = none →
    latchedOf (microFrames (micro (.sendNibble a))) = [(a.getLsbD 0, a.extractLsb' 4 4)] ∧
    ∃ t, exec (.sendNibble a) s = .next t ∧
      (AnswersOk 2 s → ∃ u, RunsTo t u ∧ u.todo = s.todo ∧ u.op = s.op ∧
        latched (eventsSince s u) = [(a.getLsbD 0, a.extractLsb' 4 4)])) ∧
  (∀ (s : State) (value m : Byte), m = 0x00#8 ∨ m = 0x01#8 → s.port = none →
    latchedOf (microFrames (micro (.sendByte value m))) =
      [(m.getLsbD 0, value.extractLsb' 4 4), (m.getLsbD 0, value.extractLsb' 0 4)] ∧
    ∃ t, exec (.sendByte value m) s = .next t ∧
      (AnswersOk 4 s → ∃ u, RunsTo t u ∧ u.todo = s.todo ∧ u.op = s.op ∧
        latched (eventsSince s u) =
          [(m.getLsbD 0, value.extractLsb' 4 4), (m.getLsbD 0, value.extractLsb' 0 4)]))

/-- 40_nibble_encoder.md section 5, 41_display_commands.md R101 to R106 under the premises of R110 (the display's reading
of a trace is the model's, notes/assumptions/14.md): after a fully successful `initialize` as the first call since reset,
the latched stream is `3 3 3 2 2 8 0 C 0 1 0 6` and the display is in four-bit mode, two lines, on, blank, left to right,
its address at 0. -/
def Obligations.DisplayIsReadyAfterInitialise : Prop :=
  ∀ s : State, Quiet s → s.fsm = .uninitialized → s.trace = [] → AnswersOk 24 s →
    ∃ t u, exec .initialise s = .next t ∧ RunsTo t u ∧ u.fsm = .ready ∧ Quiet u ∧
      latched u.trace = [0x3#4, 0x3#4, 0x3#4, 0x2#4, 0x2#4, 0x8#4, 0x0#4, 0xC#4, 0x0#4, 0x1#4, 0x0#4, 0x6#4].map
        (fun n => (false, n)) ∧
      (displayAfter u.trace).fourBit = true ∧ (displayAfter u.trace).half = none ∧
      (displayAfter u.trace).twoLines5x8 = true ∧ (displayAfter u.trace).onNoCursorNoBlink = true ∧
      (displayAfter u.trace).leftToRight = true ∧ (displayAfter u.trace).addr = some 0#7 ∧
      ∀ a, (displayAfter u.trace).cell a = .blank

/-- 41_display_commands.md R106 to R108 under the premises of R110 (notes/assumptions/14.md): a text that fits into the
row, printed after `setCursor`, stands at the positions from the clamped one on. -/
def Obligations.TextStandsWhereTheCursorWasSet : Prop :=
  ∀ (v : View) (row col : Byte) (text : List Byte),
    v.fourBit = true → v.half = none → v.leftToRight = true → min col.toNat 15 + text.length ≤ 16 →
    ∀ (k : Nat) (ch : Byte), text[k]? = some ch →
      ((latchedOf (microFrames (micro (.setCursor row col) ++ micro (.printString text)))).foldl View.latch v).cell
        (ddramAddr cfg row col + BitVec.ofNat 7 k) = .char ch

/-- 70_reset_and_hazards.md R185: once a write has failed, nothing is known of the display, whatever follows. The reading
`displayAfter` is the model's own (DESIGN CHOICE, notes/assumptions/14.md), and `linkOk` the ghost flag of R186 (decision D14,
notes/assumptions/19.md). -/
def Obligations.DisplayIsUnknownAfterAFailure : Prop :=
  ∀ s t : State, Inv s → s.linkOk = false → RunsTo s t → displayAfter t.trace = View.unknown

/-! ### What the block forms -/

/-- 20_memory.md R44: with the default geometry the addresses that `setCursor` can name are exactly 0x00 to 0x0F and 0x40 to
0x4F. -/
def Obligations.SetCursorNamesThirtyTwoAddresses : Prop :=
  ∀ a : DdramAddr, (∃ row col : Byte, ddramAddr cfg row col = a) ↔
    a.toNat ≤ 0x0F ∨ (0x40 ≤ a.toNat ∧ a.toNat ≤ 0x4F)

/-- 30_encoding.md R75 with R61, R64, R73 and 41_display_commands.md R109: at reset and after every step, every word the
block has ahead is one that it forms: nibble arguments with bits 3:1 zero; the two frame patterns; WAKE and SET4BIT, inside
`initialize` only; the four fixed command bytes; the address command with an address of R44 only; any data byte. The words
ahead are the model's layering (DESIGN CHOICE, notes/assumptions/1.md); the command bytes are from general knowledge
(93_implementation_defined.md G1, notes/assumptions/10.md). -/
def Obligations.BlockFormsOnlyItsWords : Prop :=
  FormsOnlyItsWords State.reset ∧
  (∀ s t : State, FormsOnlyItsWords s → step s = .next t → FormsOnlyItsWords t) ∧
  (∀ (op : Option Instr) (a : Byte), blockForms op (.narg a) = true ↔ a &&& 0x0E#8 = 0#8) ∧
  (∀ (op : Option Instr) (f : Byte), blockForms op (.frame f) = true ↔ f &&& 0x0E#8 = 0x0C#8 ∨ f &&& 0x0E#8 = 0x08#8) ∧
  (∀ (op : Option Instr) (w : BitVec 5), blockForms op (.xfer5 w) = true ↔
    op = some .initialise ∧ (w = 0x03#5 ∨ w = 0x02#5)) ∧
  (∀ (op : Option Instr) (b : Byte), blockForms op (.xfer9 (0#1 ++ b)) = true ↔ b ∈ [0x28#8, 0x0C#8, 0x01#8, 0x06#8] ∨
    (0x80 ≤ b.toNat ∧ b.toNat ≤ 0x8F) ∨ (0xC0 ≤ b.toNat ∧ b.toNat ≤ 0xCF)) ∧
  (∀ (op : Option Instr) (w : BitVec 9), blockForms op (.internal w) = blockForms op (.xfer9 w)) ∧
  (∀ (op : Option Instr) (r : HostReq), blockForms op (.hostreq r) = false)
end

