-- ==== Sys2Proof/Laws/Decode.lean ====
section
/-! SUPPORT. Laws of the decoder on the words the block forms, and of the assembly of fields. -/

namespace Sys2Proof

open Machine

/-- A legal nibble argument decodes to its `sendNibble` (30_encoding.md R61). -/
theorem decode_narg {a : Byte} (h : a &&& nargZeroMask = 0#8) : decode (.narg a) = .ok (.sendNibble a) := by
  simp [decode, decodeNarg, h]

/-- Both nibble arguments of a byte are legal (30_encoding.md R68: `hi[3:1] = lo[3:1] = 0`). -/
theorem nibbleHi_legal {v m : Byte} (h : isModeFlag cfg m = true) :
    nibbleHi cfg v m &&& nargZeroMask = 0#8 := by
  have : m = 0#8 ∨ m = 0x01#8 := by simpa [isModeFlag, cfg] using h
  rcases this with rfl | rfl <;> revert v <;> decide

theorem nibbleLo_legal {v m : Byte} (h : isModeFlag cfg m = true) :
    nibbleLo cfg v m &&& nargZeroMask = 0#8 := by
  have : m = 0#8 ∨ m = 0x01#8 := by simpa [isModeFlag, cfg] using h
  rcases this with rfl | rfl <;> revert v <;> decide

/-- The enable-high frame of a legal nibble argument is the frame its fields make (30_encoding.md R60, R69). -/
theorem frameOf_frameHi : ∀ a : Byte, a &&& nargZeroMask = 0#8 →
    frameOf cfg true (a.extractLsb' 4 4) (a.getLsbD 0) = frameHi cfg a := by decide

theorem frameOf_frameLo : ∀ a : Byte, a &&& nargZeroMask = 0#8 →
    frameOf cfg false (a.extractLsb' 4 4) (a.getLsbD 0) = frameLo cfg a := by decide

/-- The decoder reads the fields of either pattern back (30_encoding.md R60). -/
theorem decode_frameOf (e : Bool) (n : Nibble) (r : Bool) :
    decode (.frame (frameOf cfg e n r)) = .ok (if e then .frameEnHigh n r else .frameEnLow n r) := by
  have h : ∀ (e : Bool) (n : Nibble) (r : Bool),
      (frameOf cfg e n r).extractLsb' 4 4 = n ∧ (frameOf cfg e n r &&& cfg.rs == cfg.rs) = r ∧
      frameOf cfg e n r &&& controlMask cfg = (if e then cfg.bl ||| cfg.en else cfg.bl) := by decide
  obtain ⟨h1, h2, h3⟩ := h e n r
  simp only [decode, decodeFrame, h1, h2, h3]
  cases e <;> simp [cfg]

theorem decode_frameHi {a : Byte} (h : a &&& nargZeroMask = 0#8) :
    decode (.frame (frameHi cfg a)) = .ok (.frameEnHigh (a.extractLsb' 4 4) (a.getLsbD 0)) := by
  rw [← frameOf_frameHi a h, decode_frameOf]; rfl

theorem decode_frameLo {a : Byte} (h : a &&& nargZeroMask = 0#8) :
    decode (.frame (frameLo cfg a)) = .ok (.frameEnLow (a.extractLsb' 4 4) (a.getLsbD 0)) := by
  rw [← frameOf_frameLo a h, decode_frameOf]; rfl

/-- The argument pair of `sendByte` reads back (40_nibble_encoder.md R91). -/
theorem decode_sendByte {v m : Byte} (h : isModeFlag cfg m = true) :
    decode (encode (.sendByte v m)) = .ok (.sendByte v m) := by
  have : m = 0#8 ∨ m = 0x01#8 := by simpa [isModeFlag, cfg] using h
  rcases this with rfl | rfl
  · have : ∀ v : Byte, decodeInternal (BitVec.ofBool ((0#8 : Byte) == cfg.rs) ++ v) = .sendByte v 0#8 := by decide
    simp only [encode, decode, this]
  · have : ∀ v : Byte, decodeInternal (BitVec.ofBool ((1#8 : Byte) == cfg.rs) ++ v) = .sendByte v 1#8 := by decide
    simp only [encode, decode, this]

/-- The DDRAM address command reads back: no address makes it another command (30_encoding.md R72). -/
theorem decode_setDdramAddr (a : DdramAddr) : decode (encode (.setDdramAddr a)) = .ok (.setDdramAddr a) := by
  have h : ∀ a : DdramAddr, decodes (encode (.setDdramAddr a)) = true ∧
      (match decode (encode (.setDdramAddr a)) with
        | .ok i => i == .setDdramAddr a
        | .error _ => false) = true := by decide
  have := (h a).2
  split at this
  · rename_i heq
    rw [heq, eq_of_beq this]
  · simp at this

/-- A data byte reads back, whatever its value (30_encoding.md R63: "all 256 values are legal"). -/
theorem decode_writeData (ch : Byte) : decode (encode (.writeData ch)) = .ok (.writeData ch) := by
  have h : ∀ ch : Byte, (1#1 ++ ch).getLsbD 8 = true ∧ (1#1 ++ ch).extractLsb' 0 8 = ch := by decide
  simp only [encode, decode, decodeXfer9, (h ch).1, (h ch).2, if_true]

/-- The fixed words read back (41_display_commands.md R101 to R106). -/
theorem decode_fixedWords :
    decode (encode .wake) = .ok .wake ∧ decode (encode .set4Bit) = .ok .set4Bit ∧
    decode (encode .functionSet) = .ok .functionSet ∧ decode (encode .displayControl) = .ok .displayControl ∧
    decode (encode .clearDisplay) = .ok .clearDisplay ∧ decode (encode .entryModeSet) = .ok .entryModeSet :=
  ⟨rfl, rfl, rfl, rfl, rfl, rfl⟩

end Sys2Proof
end

