-- ==== Sys2Proof/Laws/Memory.lean ====
section
/-! SUPPORT. Laws of the output lines as memory: a write reads back and leaves every other address alone, forgetting makes
one address unknown, and both keep the canonical form. -/

namespace Sys2Proof.Machine

theorem Memory.read_write_same (m : Memory) (a : Nat) (b : Byte) : (m.write a b).read a = some b := by
  induction m with
  | nil => simp [Memory.write, Memory.read]
  | cons x rest ih =>
    obtain ⟨k, v⟩ := x
    unfold Memory.write
    split
    · simp [Memory.read]
    · split
      · simp [Memory.read]
      · have hk : k ≠ a := by omega
        simpa [Memory.read, hk] using ih

theorem Memory.read_write_other (m : Memory) {a c : Nat} (b : Byte) (h : c ≠ a) :
    (m.write a b).read c = m.read c := by
  induction m with
  | nil => simp [Memory.write, Memory.read, Ne.symm h]
  | cons x rest ih =>
    obtain ⟨k, v⟩ := x
    unfold Memory.write
    split
    · simp [Memory.read, Ne.symm h]
    · split
      · rename_i hk
        subst hk
        simp [Memory.read, Ne.symm h]
      · simp [Memory.read, ih]

/-- Every key of a write's result is the written address or an old key. -/
theorem Memory.mem_write {m : Memory} {a : Nat} {b : Byte} {x : Host.Cell} (h : x ∈ m.write a b) :
    x = (a, b) ∨ x ∈ m := by
  induction m with
  | nil => simpa [Memory.write] using h
  | cons y rest ih =>
    obtain ⟨k, v⟩ := y
    unfold Memory.write at h
    split at h
    · simpa using h
    · split at h
      · simp only [List.mem_cons] at h ⊢
        tauto
      · simp only [List.mem_cons] at h ⊢
        rcases h with h | h
        · tauto
        · have := ih h
          tauto

theorem Memory.mem_forget {m : Memory} {a : Nat} {x : Host.Cell} (h : x ∈ m.forget a) : x ∈ m := by
  induction m with
  | nil => simp [Memory.forget] at h
  | cons y rest ih =>
    obtain ⟨k, v⟩ := y
    unfold Memory.forget at h
    split at h
    · simp [h]
    · simp only [List.mem_cons] at h ⊢
      exact h.imp id ih

theorem Memory.write_wf {m : Memory} (h : m.wf) (a : Nat) (b : Byte) : (m.write a b).wf := by
  induction m with
  | nil => simp [Memory.write, Memory.wf]
  | cons y rest ih =>
    obtain ⟨k, v⟩ := y
    simp only [Memory.wf, List.pairwise_cons] at h ih ⊢
    unfold Memory.write
    split
    · rename_i hk
      simp only [List.pairwise_cons, List.mem_cons]
      refine ⟨?_, h⟩
      rintro x (rfl | hx)
      · exact hk
      · exact lt_trans hk (h.1 x hx)
    · split
      · rename_i hk
        subst hk
        simp only [List.pairwise_cons]
        exact h
      · simp only [List.pairwise_cons]
        refine ⟨fun x hx => ?_, ih h.2⟩
        rcases Memory.mem_write hx with rfl | hx
        · dsimp; omega
        · exact h.1 x hx

theorem Memory.forget_wf {m : Memory} (h : m.wf) (a : Nat) : (m.forget a).wf := by
  induction m with
  | nil => simp [Memory.forget]
  | cons y rest ih =>
    obtain ⟨k, v⟩ := y
    simp only [Memory.wf, List.pairwise_cons] at h ih ⊢
    unfold Memory.forget
    split
    · exact h.2
    · simp only [List.pairwise_cons]
      exact ⟨fun x hx => h.1 x (Memory.mem_forget hx), ih h.2⟩

theorem Memory.read_forget_other (m : Memory) {a c : Nat} (h : c ≠ a) : (m.forget a).read c = m.read c := by
  induction m with
  | nil => rfl
  | cons y rest ih =>
    obtain ⟨k, v⟩ := y
    unfold Memory.forget
    split
    · rename_i hk
      subst hk
      simp [Memory.read, Ne.symm h]
    · simp [Memory.read, ih]

theorem Memory.read_none_of_lt {m : Memory} {a : Nat} (h : ∀ x ∈ m, a < x.1) : m.read a = none := by
  induction m with
  | nil => rfl
  | cons y rest ih =>
    obtain ⟨k, v⟩ := y
    have hk : a < k := h (k, v) (by simp)
    have := ih (fun x hx => h x (by simp [hx]))
    simp [Memory.read, this]
    omega

theorem Memory.read_forget_same {m : Memory} (h : m.wf) (a : Nat) : (m.forget a).read a = none := by
  induction m with
  | nil => rfl
  | cons y rest ih =>
    obtain ⟨k, v⟩ := y
    simp only [Memory.wf, List.pairwise_cons] at h ih
    unfold Memory.forget
    split
    · rename_i hk
      subst hk
      exact Memory.read_none_of_lt h.1
    · rename_i hk
      simp [Memory.read, ih h.2, Ne.symm hk]

/-- Every memory operation keeps the canonical form. -/
theorem Memory.afterWrite_wf {m : Memory} (h : m.wf) (a : Nat) (b : Byte) (r : Status) :
    (m.afterWrite a b r).wf := by
  cases r
  · exact Memory.write_wf h a b
  · exact Memory.forget_wf h a

/-- A write to one address leaves what is known of every other. -/
theorem Memory.read_afterWrite_other (m : Memory) {a c : Nat} (b : Byte) (r : Status) (h : c ≠ a) :
    (m.afterWrite a b r).read c = m.read c := by
  cases r
  · exact Memory.read_write_other m b h
  · exact Memory.read_forget_other m h

theorem Memory.mem_afterWrite {m : Memory} {a : Nat} {b : Byte} {r : Status} {x : Host.Cell}
    (h : x ∈ m.afterWrite a b r) : x = (a, b) ∨ x ∈ m := by
  cases r
  · exact Memory.mem_write h
  · exact .inr (Memory.mem_forget h)

theorem State.reset_lines_wf : State.reset.lines.wf := by simp [State.reset, Memory.wf]

end Sys2Proof.Machine
end

