-- ==== Sys2Proof/Laws/State.lean ====
section
/-! SUPPORT. One lemma per field per update of State: what each named operation makes of each field. -/

namespace Sys2Proof.Machine

/-! `emit` -/

@[simp] theorem emit_fsm (e : Event) (s : State) : (emit e s).fsm = s.fsm := rfl
@[simp] theorem emit_curRow (e : Event) (s : State) : (emit e s).curRow = s.curRow := rfl
@[simp] theorem emit_curCol (e : Event) (s : State) : (emit e s).curCol = s.curCol := rfl
@[simp] theorem emit_seq (e : Event) (s : State) : (emit e s).seq = s.seq := rfl
@[simp] theorem emit_op (e : Event) (s : State) : (emit e s).op = s.op := rfl
@[simp] theorem emit_todo (e : Event) (s : State) : (emit e s).todo = s.todo := rfl
@[simp] theorem emit_lines (e : Event) (s : State) : (emit e s).lines = s.lines := rfl
@[simp] theorem emit_trace (e : Event) (s : State) : (emit e s).trace = s.trace ++ [e] := rfl
@[simp] theorem emit_linkOk (e : Event) (s : State) : (emit e s).linkOk = s.linkOk := rfl
@[simp] theorem emit_answers (e : Event) (s : State) : (emit e s).answers = s.answers := rfl
@[simp] theorem emit_draws (e : Event) (s : State) : (emit e s).draws = s.draws := rfl
@[simp] theorem emit_port (e : Event) (s : State) : (emit e s).port = s.port := rfl
@[simp] theorem emit_script (e : Event) (s : State) : (emit e s).script = s.script := rfl

/-! `advance` -/

@[simp] theorem advance_fsm (s : State) : (advance s).fsm = s.fsm := rfl
@[simp] theorem advance_curRow (s : State) : (advance s).curRow = s.curRow := rfl
@[simp] theorem advance_curCol (s : State) : (advance s).curCol = s.curCol := rfl
@[simp] theorem advance_seq (s : State) : (advance s).seq = s.seq + 1 := rfl
@[simp] theorem advance_op (s : State) : (advance s).op = s.op := rfl
@[simp] theorem advance_todo (s : State) : (advance s).todo = s.todo := rfl
@[simp] theorem advance_lines (s : State) : (advance s).lines = s.lines := rfl
@[simp] theorem advance_trace (s : State) : (advance s).trace = s.trace := rfl
@[simp] theorem advance_linkOk (s : State) : (advance s).linkOk = s.linkOk := rfl
@[simp] theorem advance_answers (s : State) : (advance s).answers = s.answers := rfl
@[simp] theorem advance_draws (s : State) : (advance s).draws = s.draws := rfl
@[simp] theorem advance_port (s : State) : (advance s).port = s.port := rfl
@[simp] theorem advance_script (s : State) : (advance s).script = s.script := rfl

/-! `push` -/

@[simp] theorem push_fsm (ts : List Task) (s : State) : (push ts s).fsm = s.fsm := rfl
@[simp] theorem push_curRow (ts : List Task) (s : State) : (push ts s).curRow = s.curRow := rfl
@[simp] theorem push_curCol (ts : List Task) (s : State) : (push ts s).curCol = s.curCol := rfl
@[simp] theorem push_seq (ts : List Task) (s : State) : (push ts s).seq = s.seq := rfl
@[simp] theorem push_op (ts : List Task) (s : State) : (push ts s).op = s.op := rfl
@[simp] theorem push_todo (ts : List Task) (s : State) : (push ts s).todo = ts ++ s.todo := rfl
@[simp] theorem push_lines (ts : List Task) (s : State) : (push ts s).lines = s.lines := rfl
@[simp] theorem push_trace (ts : List Task) (s : State) : (push ts s).trace = s.trace := rfl
@[simp] theorem push_linkOk (ts : List Task) (s : State) : (push ts s).linkOk = s.linkOk := rfl
@[simp] theorem push_answers (ts : List Task) (s : State) : (push ts s).answers = s.answers := rfl
@[simp] theorem push_draws (ts : List Task) (s : State) : (push ts s).draws = s.draws := rfl
@[simp] theorem push_port (ts : List Task) (s : State) : (push ts s).port = s.port := rfl
@[simp] theorem push_script (ts : List Task) (s : State) : (push ts s).script = s.script := rfl

/-! `delay` -/

@[simp] theorem delay_fsm (ms : Nat) (s : State) : (delay ms s).fsm = s.fsm := rfl
@[simp] theorem delay_curRow (ms : Nat) (s : State) : (delay ms s).curRow = s.curRow := rfl
@[simp] theorem delay_curCol (ms : Nat) (s : State) : (delay ms s).curCol = s.curCol := rfl
@[simp] theorem delay_seq (ms : Nat) (s : State) : (delay ms s).seq = s.seq + 1 := rfl
@[simp] theorem delay_op (ms : Nat) (s : State) : (delay ms s).op = s.op := rfl
@[simp] theorem delay_todo (ms : Nat) (s : State) : (delay ms s).todo = s.todo := rfl
@[simp] theorem delay_lines (ms : Nat) (s : State) : (delay ms s).lines = s.lines := rfl
@[simp] theorem delay_trace (ms : Nat) (s : State) : (delay ms s).trace = s.trace ++ [.delay ms] := rfl
@[simp] theorem delay_linkOk (ms : Nat) (s : State) : (delay ms s).linkOk = s.linkOk := rfl
@[simp] theorem delay_answers (ms : Nat) (s : State) : (delay ms s).answers = s.answers := rfl
@[simp] theorem delay_draws (ms : Nat) (s : State) : (delay ms s).draws = s.draws := rfl
@[simp] theorem delay_port (ms : Nat) (s : State) : (delay ms s).port = s.port := rfl
@[simp] theorem delay_script (ms : Nat) (s : State) : (delay ms s).script = s.script := rfl

/-! `memWrite` -/

@[simp] theorem memWrite_fsm (a : DevAddr) (b : Byte) (s : State) : (memWrite a b s).fsm = s.fsm := rfl
@[simp] theorem memWrite_curRow (a : DevAddr) (b : Byte) (s : State) : (memWrite a b s).curRow = s.curRow := rfl
@[simp] theorem memWrite_curCol (a : DevAddr) (b : Byte) (s : State) : (memWrite a b s).curCol = s.curCol := rfl
@[simp] theorem memWrite_seq (a : DevAddr) (b : Byte) (s : State) : (memWrite a b s).seq = s.seq := rfl
@[simp] theorem memWrite_op (a : DevAddr) (b : Byte) (s : State) : (memWrite a b s).op = s.op := rfl
@[simp] theorem memWrite_todo (a : DevAddr) (b : Byte) (s : State) : (memWrite a b s).todo = s.todo := rfl
@[simp] theorem memWrite_lines (a : DevAddr) (b : Byte) (s : State) : (memWrite a b s).lines = s.lines.afterWrite a.toNat b (s.answerAt 0) := rfl
@[simp] theorem memWrite_trace (a : DevAddr) (b : Byte) (s : State) : (memWrite a b s).trace = s.trace ++ [.tx a b cfg.timeoutMs (s.answerAt 0)] := rfl
@[simp] theorem memWrite_linkOk (a : DevAddr) (b : Byte) (s : State) : (memWrite a b s).linkOk = linkAfter s.linkOk (s.answerAt 0) := rfl
@[simp] theorem memWrite_answers (a : DevAddr) (b : Byte) (s : State) : (memWrite a b s).answers = s.answers.tail := rfl
@[simp] theorem memWrite_draws (a : DevAddr) (b : Byte) (s : State) : (memWrite a b s).draws = s.draws + 1 := rfl
@[simp] theorem memWrite_port (a : DevAddr) (b : Byte) (s : State) : (memWrite a b s).port = s.port := rfl
@[simp] theorem memWrite_script (a : DevAddr) (b : Byte) (s : State) : (memWrite a b s).script = s.script := rfl

/-! `abort` -/

@[simp] theorem abort_fsm (s : State) : (abort s).fsm = fsmAfterFailure s.fsm := rfl
@[simp] theorem abort_curRow (s : State) : (abort s).curRow = s.curRow := rfl
@[simp] theorem abort_curCol (s : State) : (abort s).curCol = s.curCol := rfl
@[simp] theorem abort_seq (s : State) : (abort s).seq = 0 := rfl
@[simp] theorem abort_op (s : State) : (abort s).op = none := rfl
@[simp] theorem abort_todo (s : State) : (abort s).todo = [] := rfl
@[simp] theorem abort_lines (s : State) : (abort s).lines = s.lines := rfl
@[simp] theorem abort_trace (s : State) : (abort s).trace = s.trace ++ [.ret .fail] := rfl
@[simp] theorem abort_linkOk (s : State) : (abort s).linkOk = s.linkOk := rfl
@[simp] theorem abort_answers (s : State) : (abort s).answers = s.answers := rfl
@[simp] theorem abort_draws (s : State) : (abort s).draws = s.draws := rfl
@[simp] theorem abort_port (s : State) : (abort s).port = s.port := rfl
@[simp] theorem abort_script (s : State) : (abort s).script = s.script := rfl

/-! `start` -/

@[simp] theorem start_fsm (i : Instr) (f : Fsm) (ts : List Task) (s : State) : (start i f ts s).fsm = f := rfl
@[simp] theorem start_curRow (i : Instr) (f : Fsm) (ts : List Task) (s : State) : (start i f ts s).curRow = s.curRow := rfl
@[simp] theorem start_curCol (i : Instr) (f : Fsm) (ts : List Task) (s : State) : (start i f ts s).curCol = s.curCol := rfl
@[simp] theorem start_seq (i : Instr) (f : Fsm) (ts : List Task) (s : State) : (start i f ts s).seq = 0 := rfl
@[simp] theorem start_op (i : Instr) (f : Fsm) (ts : List Task) (s : State) : (start i f ts s).op = some i := rfl
@[simp] theorem start_todo (i : Instr) (f : Fsm) (ts : List Task) (s : State) : (start i f ts s).todo = ts := rfl
@[simp] theorem start_lines (i : Instr) (f : Fsm) (ts : List Task) (s : State) : (start i f ts s).lines = s.lines := rfl
@[simp] theorem start_trace (i : Instr) (f : Fsm) (ts : List Task) (s : State) : (start i f ts s).trace = s.trace ++ [.call i] := rfl
@[simp] theorem start_linkOk (i : Instr) (f : Fsm) (ts : List Task) (s : State) : (start i f ts s).linkOk = s.linkOk := rfl
@[simp] theorem start_answers (i : Instr) (f : Fsm) (ts : List Task) (s : State) : (start i f ts s).answers = s.answers := rfl
@[simp] theorem start_draws (i : Instr) (f : Fsm) (ts : List Task) (s : State) : (start i f ts s).draws = s.draws := rfl
@[simp] theorem start_port (i : Instr) (f : Fsm) (ts : List Task) (s : State) : (start i f ts s).port = s.port := rfl
@[simp] theorem start_script (i : Instr) (f : Fsm) (ts : List Task) (s : State) : (start i f ts s).script = s.script := rfl

/-! `finish`: the end of an operation -/

@[simp] theorem completion_lines (i : Instr) (s : State) : (completion i s).lines = s.lines := by cases i <;> rfl
@[simp] theorem completion_linkOk (i : Instr) (s : State) : (completion i s).linkOk = s.linkOk := by cases i <;> rfl
@[simp] theorem completion_answers (i : Instr) (s : State) : (completion i s).answers = s.answers := by cases i <;> rfl
@[simp] theorem completion_draws (i : Instr) (s : State) : (completion i s).draws = s.draws := by cases i <;> rfl
@[simp] theorem completion_port (i : Instr) (s : State) : (completion i s).port = s.port := by cases i <;> rfl
@[simp] theorem completion_script (i : Instr) (s : State) : (completion i s).script = s.script := by cases i <;> rfl
@[simp] theorem completion_trace (i : Instr) (s : State) : (completion i s).trace = s.trace := by cases i <;> rfl
@[simp] theorem finish_fsm (i : Instr) (s : State) : (finish i s).fsm = (completion i s).fsm := rfl
@[simp] theorem finish_curRow (i : Instr) (s : State) : (finish i s).curRow = (completion i s).curRow := rfl
@[simp] theorem finish_curCol (i : Instr) (s : State) : (finish i s).curCol = (completion i s).curCol := rfl
@[simp] theorem finish_seq (i : Instr) (s : State) : (finish i s).seq = 0 := rfl
@[simp] theorem finish_op (i : Instr) (s : State) : (finish i s).op = none := rfl
@[simp] theorem finish_todo (i : Instr) (s : State) : (finish i s).todo = [] := rfl
@[simp] theorem finish_lines (i : Instr) (s : State) : (finish i s).lines = s.lines := by cases i <;> rfl
@[simp] theorem finish_trace (i : Instr) (s : State) : (finish i s).trace = s.trace ++ [.ret .ok] := by cases i <;> rfl
@[simp] theorem finish_linkOk (i : Instr) (s : State) : (finish i s).linkOk = s.linkOk := by cases i <;> rfl
@[simp] theorem finish_answers (i : Instr) (s : State) : (finish i s).answers = s.answers := by cases i <;> rfl
@[simp] theorem finish_draws (i : Instr) (s : State) : (finish i s).draws = s.draws := by cases i <;> rfl
@[simp] theorem finish_port (i : Instr) (s : State) : (finish i s).port = s.port := by cases i <;> rfl
@[simp] theorem finish_script (i : Instr) (s : State) : (finish i s).script = s.script := by cases i <;> rfl

end Sys2Proof.Machine
end

