-- ==== Sys2Proof/Laws/Ops.lean ====
section
/-! SUPPORT. One lemma per shared operation that says everything it can do. -/

namespace Sys2Proof.Machine

/-- What `answerAt` depends on. -/
theorem answerAt_congr {s t : State} (ha : t.answers = s.answers) (hd : t.draws = s.draws) (k : Nat) :
    t.answerAt k = s.answerAt k := by
  simp only [State.answerAt, ha, hd]

@[simp] theorem answerAt_emit (e : Event) (s : State) (k : Nat) : (emit e s).answerAt k = s.answerAt k := rfl
@[simp] theorem answerAt_advance (s : State) (k : Nat) : (advance s).answerAt k = s.answerAt k := rfl
@[simp] theorem answerAt_push (ts : List Task) (s : State) (k : Nat) : (push ts s).answerAt k = s.answerAt k := rfl
@[simp] theorem answerAt_delay (ms : Nat) (s : State) (k : Nat) : (delay ms s).answerAt k = s.answerAt k := rfl
@[simp] theorem answerAt_abort (s : State) (k : Nat) : (abort s).answerAt k = s.answerAt k := rfl
@[simp] theorem answerAt_start (i : Instr) (f : Fsm) (ts : List Task) (s : State) (k : Nat) :
    (start i f ts s).answerAt k = s.answerAt k := rfl
@[simp] theorem answerAt_finish (i : Instr) (s : State) (k : Nat) : (finish i s).answerAt k = s.answerAt k :=
  answerAt_congr (by simp) (by simp) k

/-- Each `TX` takes one answer: the next one comes next. -/
@[simp] theorem answerAt_memWrite (a : DevAddr) (b : Byte) (s : State) (k : Nat) :
    (memWrite a b s).answerAt k = s.answerAt (k + 1) := by
  simp only [State.answerAt, memWrite_answers, memWrite_draws]
  cases hs : s.answers with
  | nil => simp; congr 1; omega
  | cons x xs => simp; split <;> first | rfl | (congr 1; omega)

/-- `Tx(b)` either goes on in the sequence, its answer `ok`, or aborts the operation, its answer `fail`. -/
theorem transmit_cases (b : Byte) (s : State) :
    (s.answerAt 0 = .ok ∧ transmit b s = advance (memWrite cfg.i2cAddr b s)) ∨
    (s.answerAt 0 = .fail ∧ transmit b s = abort (memWrite cfg.i2cAddr b s)) := by
  unfold transmit
  cases h : s.answerAt 0 <;> simp

theorem transmit_of_ok {b : Byte} {s : State} (h : s.answerAt 0 = .ok) :
    transmit b s = advance (memWrite cfg.i2cAddr b s) := by simp [transmit, h]

theorem transmit_of_fail {b : Byte} {s : State} (h : s.answerAt 0 = .fail) :
    transmit b s = abort (memWrite cfg.i2cAddr b s) := by simp [transmit, h]

/-- A `CALL` that is taken was made to an idle block in the right state, and starts the operation. -/
theorem accept_next {i : Instr} {f : Fsm} {ts : List Task} {s t : State} (h : accept i f ts s = .next t) :
    busy s = false ∧ admits s.fsm i = true ∧ t = start i f ts s := by
  unfold accept at h
  cases hb : busy s <;> cases ha : admits s.fsm i <;> simp [hb, ha] at h
  exact ⟨rfl, rfl, h.symm⟩

theorem accept_of_idle {i : Instr} {f : Fsm} {ts : List Task} {s : State} (hb : busy s = false)
    (ha : admits s.fsm i = true) : accept i f ts s = .next (start i f ts s) := by
  simp [accept, hb, ha]

theorem busy_eq_false {s : State} : busy s = false ↔ s.op = none ∧ s.todo = [] := by
  simp [busy, List.isEmpty_iff]

/-- A failure leaves the cursor as it was and makes Initializing Faulted (60_exceptions.md R153 to R155). -/
theorem abort_spec (s : State) :
    (abort s).op = none ∧ (abort s).todo = [] ∧ (abort s).seq = 0 ∧ (abort s).fsm = fsmAfterFailure s.fsm ∧
    (abort s).curRow = s.curRow ∧ (abort s).curCol = s.curCol ∧ (abort s).trace = s.trace ++ [.ret .fail] := by
  simp

end Sys2Proof.Machine
end

