-- ==== Sys2Proof/Laws/Step.lean ====
section
/-! SUPPORT. What a fetch, an instruction and a step can do, said once. -/

namespace Sys2Proof.Machine

/-! ### Fetch and step, forwards -/

theorem fetch_word {s : State} {w : Code} {rest : List Task} (hp : s.port = none) (ht : s.todo = .word w :: rest) :
    fetch s = .word w { s with todo := rest } := by
  simp [fetch, hp, ht]

theorem fetch_wait {s : State} {ms : Nat} {rest : List Task} (hp : s.port = none) (ht : s.todo = .wait ms :: rest) :
    fetch s = .wait ms { s with todo := rest } := by
  simp [fetch, hp, ht]

theorem fetch_finished {s : State} {i : Instr} (hp : s.port = none) (ht : s.todo = []) (ho : s.op = some i) :
    fetch s = .finished i := by
  simp [fetch, hp, ht, ho]

theorem step_word {s : State} {w : Code} {i : Instr} {rest : List Task} (hp : s.port = none)
    (ht : s.todo = .word w :: rest) (hd : decode w = .ok i) : step s = exec i { s with todo := rest } := by
  simp [step, fetch_word hp ht, hd]

theorem step_wait {s : State} {ms : Nat} {rest : List Task} (hp : s.port = none) (ht : s.todo = .wait ms :: rest) :
    step s = .next (delay ms { s with todo := rest }) := by
  simp [step, fetch_wait hp ht]

theorem step_finished {s : State} {i : Instr} (hp : s.port = none) (ht : s.todo = []) (ho : s.op = some i) :
    step s = .next (finish i s) := by
  simp [step, fetch_finished hp ht ho]

/-! ### Fetch and step, backwards -/

/-- The five things a fetch can find. -/
theorem fetch_cases (s : State) :
    (busy s = true ∧ s.port.isSome = true ∧ fetch s = .callWhileBusy) ∨
    (∃ w rest, s.todo = .word w :: rest ∧ s.port = none ∧ fetch s = .word w { s with todo := rest }) ∨
    (∃ ms rest, s.todo = .wait ms :: rest ∧ s.port = none ∧ fetch s = .wait ms { s with todo := rest }) ∨
    (∃ i, s.todo = [] ∧ s.op = some i ∧ s.port = none ∧ fetch s = .finished i) ∨
    (∃ r, s.todo = [] ∧ s.op = none ∧ s.port = some r ∧ fetch s = .word (.hostreq r) { s with port := none }) ∨
    (∃ r rest, s.todo = [] ∧ s.op = none ∧ s.port = none ∧ s.script = r :: rest ∧
      fetch s = .word (.hostreq r) { s with script := rest }) ∨
    (s.todo = [] ∧ s.op = none ∧ s.port = none ∧ s.script = [] ∧ fetch s = .idle) := by
  cases hp : s.port with
  | some r =>
    cases hb : busy s with
    | true => exact .inl ⟨rfl, rfl, by simp [fetch, hb, hp]⟩
    | false =>
      obtain ⟨ho, ht⟩ := busy_eq_false.mp hb
      exact .inr (.inr (.inr (.inr (.inl ⟨r, ht, ho, rfl, by simp [fetch, hb, hp, ho, ht]⟩))))
  | none =>
    cases ht : s.todo with
    | cons x rest =>
      cases x with
      | word w => exact .inr (.inl ⟨w, rest, rfl, rfl, by simp [fetch, hp, ht]⟩)
      | wait ms => exact .inr (.inr (.inl ⟨ms, rest, rfl, rfl, by simp [fetch, hp, ht]⟩))
    | nil =>
      cases ho : s.op with
      | some i => exact .inr (.inr (.inr (.inl ⟨i, rfl, rfl, rfl, fetch_finished hp ht ho⟩)))
      | none =>
        cases hs : s.script with
        | nil =>
          exact .inr (.inr (.inr (.inr (.inr (.inr ⟨rfl, rfl, rfl, rfl, by simp [fetch, hp, ht, ho, hs]⟩)))))
        | cons r rest =>
          exact .inr (.inr (.inr (.inr (.inr (.inl ⟨r, rest, rfl, rfl, rfl, rfl, by simp [fetch, hp, ht, ho, hs]⟩)))))

/-- Everything a step can do when it answers a next state: run a decoded word, keep a wait, end an operation, or stay
idle. -/
theorem step_cases {s t : State} (h : step s = .next t) :
    (∃ w rest i, s.todo = .word w :: rest ∧ s.port = none ∧ decode w = .ok i ∧
      exec i { s with todo := rest } = .next t) ∨
    (∃ ms rest, s.todo = .wait ms :: rest ∧ s.port = none ∧ t = delay ms { s with todo := rest }) ∨
    (∃ i, s.todo = [] ∧ s.op = some i ∧ s.port = none ∧ t = finish i s) ∨
    (∃ r s', s.todo = [] ∧ s.op = none ∧ (s' = { s with port := none } ∨ ∃ rest, s' = { s with script := rest }) ∧
      exec (decodeHostReq r) s' = .next t) ∨
    (s.todo = [] ∧ s.op = none ∧ t = s) := by
  rcases fetch_cases s with ⟨_, _, hf⟩ | ⟨w, rest, ht, hp, hf⟩ | ⟨ms, rest, ht, hp, hf⟩ | ⟨i, ht, ho, hp, hf⟩ |
    ⟨r, ht, ho, hp, hf⟩ | ⟨r, rest, ht, ho, hp, hs, hf⟩ | ⟨ht, ho, hp, hs, hf⟩ <;>
    simp only [step, hf] at h
  · cases h
  · left
    cases hd : decode w with
    | ok i => exact ⟨w, rest, i, ht, hp, hd, by simpa [hd] using h⟩
    | error e => simp [hd] at h
  · cases h; exact .inr (.inl ⟨ms, rest, ht, hp, rfl⟩)
  · cases h; exact .inr (.inr (.inl ⟨i, ht, ho, hp, rfl⟩))
  · exact .inr (.inr (.inr (.inl ⟨r, _, ht, ho, .inl rfl, h⟩)))
  · exact .inr (.inr (.inr (.inl ⟨r, _, ht, ho, .inr ⟨rest, rfl⟩, h⟩)))
  · cases h; exact .inr (.inr (.inr (.inr ⟨ht, ho, rfl⟩)))

/-! ### Runs -/

theorem run_add {a b : Nat} {s t : State} (h : Host.Core.run Sys2Proof.core a s = .next t) :
    Host.Core.run Sys2Proof.core (a + b) s = Host.Core.run Sys2Proof.core b t := by
  induction a generalizing s with
  | zero => cases h; simp
  | succ a ih =>
    rw [Nat.succ_add]
    simp only [Host.Core.run] at h ⊢
    split at h
    · exact ih h
    · cases h
    · cases h

theorem RunsTo.refl (s : State) : RunsTo s s := ⟨0, rfl⟩

theorem RunsTo.trans {s t u : State} (h : RunsTo s t) (h' : RunsTo t u) : RunsTo s u := by
  obtain ⟨a, ha⟩ := h
  obtain ⟨b, hb⟩ := h'
  exact ⟨a + b, (run_add ha).trans hb⟩

theorem RunsTo.step {s t u : State} (h : step s = .next t) (h' : RunsTo t u) : RunsTo s u := by
  obtain ⟨k, hk⟩ := h'
  refine ⟨k + 1, ?_⟩
  have : Sys2Proof.core.step s = .next t := h
  simp only [Host.Core.run, this]
  exact hk

end Sys2Proof.Machine
end

