-- ==== Sys2Proof/Laws/Micro.lean ====
section
/-! SUPPORT. Laws of the flat run of a list of micro-operations. -/

namespace Sys2Proof.Machine

/-- A list run after another goes on from where the first left off, unless that failed. -/
theorem runMicro_append (l₁ l₂ : List Micro) (s : State) :
    runMicro (l₁ ++ l₂) s =
      match runMicro l₁ s with
      | (t, .ok) => runMicro l₂ t
      | (t, .fail) => (t, .fail) := by
  induction l₁ generalizing s with
  | nil => rfl
  | cons x rest ih =>
    cases x with
    | wait ms => simp only [List.cons_append, runMicro, ih]
    | tx b =>
      simp only [List.cons_append, runMicro]
      cases s.answerAt 0 <;> simp [ih]

/-- What a run of micro-operations leaves unchanged. -/
theorem runMicro_frame (l : List Micro) (s : State) :
    (runMicro l s).1.fsm = s.fsm ∧ (runMicro l s).1.curRow = s.curRow ∧ (runMicro l s).1.curCol = s.curCol ∧
    (runMicro l s).1.op = s.op ∧ (runMicro l s).1.todo = s.todo ∧ (runMicro l s).1.port = s.port ∧
    (runMicro l s).1.script = s.script := by
  induction l generalizing s with
  | nil => simp [runMicro]
  | cons x rest ih =>
    cases x with
    | wait ms => simpa [runMicro] using ih (delay ms s)
    | tx b =>
      simp only [runMicro]
      cases s.answerAt 0 with
      | ok => simpa using ih (advance (memWrite cfg.i2cAddr b s))
      | fail => simp

/-- A run of micro-operations does not look at the remaining tasks. -/
theorem runMicro_todo (l : List Micro) (s : State) (ts : List Task) :
    runMicro l { s with todo := ts } = ({ (runMicro l s).1 with todo := ts }, (runMicro l s).2) := by
  induction l generalizing s with
  | nil => rfl
  | cons x rest ih =>
    cases x with
    | wait ms => exact ih (delay ms s)
    | tx b =>
      simp only [runMicro]
      have h0 : State.answerAt { s with todo := ts } 0 = s.answerAt 0 := rfl
      rw [h0]
      cases s.answerAt 0 with
      | ok => exact ih (advance (memWrite cfg.i2cAddr b s))
      | fail => rfl

theorem expand_append (a b : List Task) : expand (a ++ b) = expand a ++ expand b := by
  induction a with
  | nil => rfl
  | cons x rest ih =>
    cases x with
    | wait ms => simp [expand, ih]
    | word w =>
      simp only [List.cons_append, expand, ih]
      cases decode w <;> simp

end Sys2Proof.Machine
end

