-- ==== Sys2Proof/Laws/Exec.lean ====
section
/-! SUPPORT. What an instruction can do, said once, with the micro-operations its tasks stand for. -/

namespace Sys2Proof.Machine

/-- The tasks stand for the micro-operations `l`, and each is a wait or a well-formed internal instruction. -/
def StandsFor (ts : List Task) (l : List Micro) : Prop := expand ts = l ∧ ∀ x ∈ ts, x.wf = true

theorem StandsFor.append {a b : List Task} {l m : List Micro} (ha : StandsFor a l) (hb : StandsFor b m) :
    StandsFor (a ++ b) (l ++ m) := by
  refine ⟨by rw [expand_append, ha.1, hb.1], fun x hx => ?_⟩
  rcases List.mem_append.mp hx with h | h
  · exact ha.2 x h
  · exact hb.2 x h

/-- A word of an internal instruction stands for that instruction's micro-sequence. -/
theorem standsFor_word {w : Code} {i : Instr} (hd : decode w = .ok i) (hw : i.wf = true) (hh : i.isHost = false) :
    StandsFor [.word w] (micro i) := by
  refine ⟨by simp [expand, hd], ?_⟩
  simp [Task.wf, hd, hw, hh]

theorem standsFor_wait (ms : Nat) : StandsFor [.wait ms] [.wait ms] := by
  refine ⟨rfl, ?_⟩
  simp [Task.wf]

theorem standsFor_nil : StandsFor [] [] := ⟨rfl, by simp⟩

/-- 40_nibble_encoder.md R90 and R93: the tasks of `sendNibble` stand for `NIB(a)`. -/
theorem standsFor_nibble {a : Byte} (h : a &&& nargZeroMask = 0#8) :
    StandsFor [.word (.frame (frameHi cfg a)), .wait cfg.tEnHigh, .word (.frame (frameLo cfg a)), .wait cfg.tEnLow]
      (nib a) := by
  have h1 := standsFor_word (decode_frameHi h) rfl rfl
  have h2 := standsFor_word (decode_frameLo h) rfl rfl
  simp only [micro, frameOf_frameHi a h, frameOf_frameLo a h] at h1 h2
  exact (h1.append (standsFor_wait _)).append (h2.append (standsFor_wait _))

/-- R91 and R93: the tasks of `sendByte` stand for `BYTE(v, m)`. -/
theorem standsFor_byte {v m : Byte} (h : isModeFlag cfg m = true) :
    StandsFor [.word (.narg (nibbleHi cfg v m)), .word (.narg (nibbleLo cfg v m))] (bytePair v m) :=
  (standsFor_word (decode_narg (nibbleHi_legal h)) (by simp [Instr.wf, nibbleHi_legal h]) rfl).append
    (standsFor_word (decode_narg (nibbleLo_legal h)) (by simp [Instr.wf, nibbleLo_legal h]) rfl)

/-- A call of `sendByte` with a mode flag of the block stands for `BYTE(v, m)`. -/
theorem standsFor_sendByte (v : Byte) (data : Bool) :
    StandsFor [runTask (.sendByte v (modeFlag cfg data))] (bytePair v (modeFlag cfg data)) :=
  have h : isModeFlag cfg (modeFlag cfg data) = true := by cases data <;> rfl
  standsFor_word (decode_sendByte h) h rfl

theorem standsFor_initTasks : StandsFor initTasks initMicro := by
  refine ⟨rfl, ?_⟩
  decide

theorem standsFor_text (text : List Byte) :
    StandsFor (text.map (fun ch => runTask (.writeData ch))) (text.flatMap (fun ch => bytePair ch cfg.rs)) := by
  induction text with
  | nil => exact standsFor_nil
  | cons ch rest ih => exact (standsFor_word (decode_writeData ch) rfl rfl).append ih

/-- The state `fsm` takes when a host operation is accepted: Initializing for `initialize` (42_initialization.md R120),
unchanged for the others. -/
def fsmAtStart (i : Instr) (f : Fsm) : Fsm := if i = .initialise then .initializing else f

/-- A host operation that is accepted starts with tasks that stand for its micro-sequence. -/
theorem exec_host {i : Instr} (hh : i.isHost = true) : ∃ ts, StandsFor ts (micro i) ∧
    ∀ s, exec i s = accept i (fsmAtStart i s.fsm) ts s := by
  cases i with
  | initialise => exact ⟨_, standsFor_initTasks, fun s => rfl⟩
  | setCursor row col =>
    have h := standsFor_word (decode_setDdramAddr (ddramAddr cfg row col)) rfl rfl
    exact ⟨_, h, fun s => rfl⟩
  | printString text => exact ⟨_, standsFor_text text, fun s => rfl⟩
  | clear => exact ⟨_, standsFor_word (i := .clearDisplay) rfl rfl rfl, fun s => rfl⟩
  | _ => cases hh

/-- An internal instruction unfolds into tasks that stand for its micro-sequence, or is one frame to write. -/
theorem exec_internal {i : Instr} (hh : i.isHost = false) (hw : i.wf = true) :
    (∃ ts, StandsFor ts (micro i) ∧ ∀ s, exec i s = .next (push ts s)) ∨
    (∃ b, micro i = [.tx b] ∧ (∃ e n r, b = frameOf cfg e n r) ∧ ∀ s, exec i s = .next (transmit b s)) := by
  cases i with
  | sendByte v m =>
    have hm : isModeFlag cfg m = true := hw
    exact .inl ⟨_, standsFor_byte hm, fun s => by simp [exec, execSendByte, hm]⟩
  | sendNibble a =>
    have ha : a &&& nargZeroMask = 0#8 := by simpa [Instr.wf] using hw
    exact .inl ⟨_, standsFor_nibble ha, fun s => by simp [exec, execSendNibble, ha]⟩
  | wake =>
    have h := standsFor_word (decode_narg (a := nargOf wakeNibble 0#1) (by decide)) (by decide) rfl
    exact .inl ⟨_, h, fun s => rfl⟩
  | set4Bit =>
    have h := standsFor_word (decode_narg (a := nargOf set4BitNibble 0#1) (by decide)) (by decide) rfl
    exact .inl ⟨_, h, fun s => rfl⟩
  | functionSet => exact .inl ⟨_, standsFor_sendByte _ false, fun s => rfl⟩
  | displayControl => exact .inl ⟨_, standsFor_sendByte _ false, fun s => rfl⟩
  | clearDisplay => exact .inl ⟨_, (standsFor_sendByte _ false).append (standsFor_wait _), fun s => rfl⟩
  | entryModeSet => exact .inl ⟨_, standsFor_sendByte _ false, fun s => rfl⟩
  | setDdramAddr a => exact .inl ⟨_, standsFor_sendByte _ false, fun s => rfl⟩
  | writeData ch => exact .inl ⟨_, standsFor_sendByte _ true, fun s => rfl⟩
  | frameEnHigh n r => exact .inr ⟨_, rfl, ⟨true, n, r, rfl⟩, fun s => rfl⟩
  | frameEnLow n r => exact .inr ⟨_, rfl, ⟨false, n, r, rfl⟩, fun s => rfl⟩
  | _ => cases hh

/-- An instruction that the spec gives no meaning answers no next state. -/
theorem wf_of_exec_next {i : Instr} {s t : State} (h : exec i s = .next t) : i.wf = true := by
  cases i with
  | sendByte v m =>
    simp only [exec, execSendByte] at h
    split at h
    · rename_i hm; exact hm
    · cases h
  | sendNibble a =>
    simp only [exec, execSendNibble] at h
    split at h
    · rename_i ha; simpa [Instr.wf] using ha
    · cases h
  | _ => rfl

/-- Everything an instruction can do when it answers a next state: start a host operation on an idle block in the right
state, unfold into tasks, or write one frame. -/
theorem exec_cases {i : Instr} {s t : State} (h : exec i s = .next t) :
    (i.isHost = true ∧ busy s = false ∧ admits s.fsm i = true ∧
      ∃ ts, StandsFor ts (micro i) ∧ t = start i (fsmAtStart i s.fsm) ts s) ∨
    (i.isHost = false ∧ ∃ ts, StandsFor ts (micro i) ∧ t = push ts s) ∨
    (i.isHost = false ∧ ∃ b, micro i = [.tx b] ∧ (∃ e n r, b = frameOf cfg e n r) ∧ t = transmit b s) := by
  have hw := wf_of_exec_next h
  cases hh : i.isHost with
  | true =>
    obtain ⟨ts, hts, he⟩ := exec_host hh
    rw [he] at h
    obtain ⟨hb, ha, rfl⟩ := accept_next h
    exact .inl ⟨rfl, hb, ha, ts, hts, rfl⟩
  | false =>
    rcases exec_internal hh hw with ⟨ts, hts, he⟩ | ⟨b, hm, hb, he⟩
    · rw [he] at h; cases h; exact .inr (.inl ⟨rfl, ts, hts, rfl⟩)
    · rw [he] at h; cases h; exact .inr (.inr ⟨rfl, b, hm, hb, rfl⟩)

end Sys2Proof.Machine
end

