-- ==== Sys2Proof/Laws/PerInstr.lean ====
section
/-! SUPPORT. Statements about every instruction as syntax, one lemma per constructor. `TableRow`: the word of every
well-formed instruction has the fixed bits of its row in spec/opcode_table.json. -/

namespace Sys2Proof.Laws.TableRow

/-- The bits of a word that its row of the table numbers. -/
def bitsOf : Code → Nat
  | .hostreq r => r.op.toNat
  | .internal w => w.toNat
  | .narg a => a.toNat
  | .xfer5 w => w.toNat
  | .xfer9 w => w.toNat
  | .frame f => f.toNat

/-- The `mask` and `match` of each row, copied from spec/opcode_table.json. -/
def row : Instr → Nat × Nat
  | .initialise => (0x3, 0x0)
  | .setCursor _ _ => (0x3, 0x1)
  | .printString _ => (0x3, 0x2)
  | .clear => (0x3, 0x3)
  | .sendByte _ _ => (0x000, 0x000)
  | .sendNibble _ => (0x0E, 0x00)
  | .wake => (0x1F, 0x03)
  | .set4Bit => (0x1F, 0x02)
  | .functionSet => (0x1FF, 0x028)
  | .displayControl => (0x1FF, 0x00C)
  | .clearDisplay => (0x1FF, 0x001)
  | .entryModeSet => (0x1FF, 0x006)
  | .setDdramAddr _ => (0x180, 0x080)
  | .writeData _ => (0x100, 0x100)
  | .frameEnHigh _ _ => (0x0E, 0x0C)
  | .frameEnLow _ _ => (0x0E, 0x08)

/-- The word of a well-formed instruction has its row's fixed bits. -/
def Statement (i : Instr) : Prop := i.wf = true → bitsOf (encode i) &&& (row i).1 = (row i).2

theorem initialise : Statement .initialise := fun _ => rfl
theorem setCursor (r c : Byte) : Statement (.setCursor r c) := fun _ => show (1 : Nat) &&& 3 = 1 from rfl
theorem printString (text : List Byte) : Statement (.printString text) := fun _ => show (2 : Nat) &&& 3 = 2 from rfl
theorem clear : Statement .clear := fun _ => rfl
theorem sendByte (value m : Byte) : Statement (.sendByte value m) := fun _ => Nat.and_zero _
theorem sendNibble (a : Byte) : Statement (.sendNibble a) := by
  revert a
  have h : ∀ a : Byte, (Instr.sendNibble a).wf = true → a.toNat &&& 0x0E = 0x00 := by decide
  exact h
theorem wake : Statement .wake := fun _ => rfl
theorem set4Bit : Statement .set4Bit := fun _ => rfl
theorem functionSet : Statement .functionSet := fun _ => rfl
theorem displayControl : Statement .displayControl := fun _ => rfl
theorem clearDisplay : Statement .clearDisplay := fun _ => rfl
theorem entryModeSet : Statement .entryModeSet := fun _ => rfl
theorem setDdramAddr (a : DdramAddr) : Statement (.setDdramAddr a) := by
  have h : ∀ a : DdramAddr, bitsOf (encode (.setDdramAddr a)) &&& 0x180 = 0x080 := by decide
  exact fun _ => h a
theorem writeData (ch : Byte) : Statement (.writeData ch) := by
  have h : ∀ ch : Byte, bitsOf (encode (.writeData ch)) &&& 0x100 = 0x100 := by decide
  exact fun _ => h ch
theorem frameEnHigh (n : Nibble) (r : Bool) : Statement (.frameEnHigh n r) := by
  have h : ∀ (n : Nibble) (r : Bool), bitsOf (encode (.frameEnHigh n r)) &&& 0x0E = 0x0C := by decide
  exact fun _ => h n r
theorem frameEnLow (n : Nibble) (r : Bool) : Statement (.frameEnLow n r) := by
  have h : ∀ (n : Nibble) (r : Bool), bitsOf (encode (.frameEnLow n r)) &&& 0x0E = 0x08 := by decide
  exact fun _ => h n r

end Sys2Proof.Laws.TableRow
end

