-- ==== Sys2Proof/Tests/Slice0.lean ====
section
/-! SUPPORT. The package's own tests: ill-formed terms for each check, words written out from the spec's encodings, one step
of each instruction (expected results from spec/95_test_vectors.md and the rules named), and a witness for the hypotheses
of every statement. -/

namespace Sys2Proof.Tests

open Sys2Proof Sys2Proof.Machine

/-! ### Well-formedness -/

/-- 30_encoding.md R62: a mode flag other than 0x00 and `RS`. -/
theorem test_illFormed_modeFlag : (Instr.sendByte 0x41#8 0x02#8).wf = false := by decide
/-- 30_encoding.md R61: each of bits 3:1 set. -/
theorem test_illFormed_narg : (Instr.sendNibble 0x32#8).wf = false ∧ (Instr.sendNibble 0x34#8).wf = false ∧
    (Instr.sendNibble 0x38#8).wf = false := by decide
theorem test_wellFormed : (Instr.sendByte 0xFF#8 0x01#8).wf = true ∧ (Instr.sendNibble 0xF1#8).wf = true ∧
    (Instr.setCursor 255#8 255#8).wf = true ∧ (Instr.printString []).wf = true := by decide
/-- 00_scope.md R6: one configuration refused for each condition. -/
theorem test_config_maskOutside : ¬ ({ cfg with bl := 0x10#8 } : Config).WellFormed := by decide
theorem test_config_maskTwoBits : ¬ ({ cfg with en := 0x0C#8 } : Config).WellFormed := by decide
theorem test_config_masksEqual : ¬ ({ cfg with rw := 0x01#8 } : Config).WellFormed := by decide
theorem test_config_noRows : ¬ ({ cfg with rows := 0, rowOffset := [] } : Config).WellFormed := by decide
theorem test_config_tooManyCols : ¬ ({ cfg with cols := 257 } : Config).WellFormed := by decide
theorem test_config_offsetCount : ¬ ({ cfg with rowOffset := [0x00] } : Config).WellFormed := by decide
theorem test_config_offsetTooHigh : ¬ ({ cfg with rowOffset := [0x00, 0x71] } : Config).WellFormed := by decide

/-! ### Decoding, words written out bit by bit -/

/-- 30_encoding.md R65: `op` = 0 to 3. -/
theorem test_decode_hostreq : decodeTableWord 8 0b00000000 = some .initialise ∧
    decodeTableWord 8 0b00000001 = some (.setCursor 0#8 0#8) ∧ decodeTableWord 8 0b00000010 = some (.printString []) ∧
    decodeTableWord 8 0b00000011 = some .clear := by decide
/-- 30_encoding.md R63, R73, the XFER9 rows of the opcode table. -/
theorem test_decode_xfer9 : decodeTableWord 16 0b000101000 = some .functionSet ∧
    decodeTableWord 16 0b000001100 = some .displayControl ∧ decodeTableWord 16 0b000000001 = some .clearDisplay ∧
    decodeTableWord 16 0b000000110 = some .entryModeSet ∧ decodeTableWord 16 0b010000000 = some (.setDdramAddr 0#7) ∧
    decodeTableWord 16 0b100000000 = some (.writeData 0#8) := by decide
/-- 40_nibble_encoder.md R91: a word that is no XFER9 word of the table is the argument pair of `sendByte`. -/
theorem test_decode_internal : decodeTableWord 16 0b000000000 = some (.sendByte 0x00#8 0x00#8) := by decide
/-- 30_encoding.md R60: `nnnn110r`, `nnnn100r`, and the example frames of R90. -/
theorem test_decode_frames : decodeTableWord 8 0b00001100 = some (.frameEnHigh 0x0#4 false) ∧
    decodeTableWord 8 0b00001000 = some (.frameEnLow 0x0#4 false) ∧
    decodeTableWord 8 0b01001101 = some (.frameEnHigh 0x4#4 true) ∧
    decodeTableWord 8 0b01001001 = some (.frameEnLow 0x4#4 true) := by decide
/-- 30_encoding.md R61: `nnnn000m`. -/
theorem test_decode_narg : decodeTableWord 8 0b01000001 = some (.sendNibble 0x41#8) := by decide
/-- 30_encoding.md R64: `{0, 0x3}`, `{0, 0x2}`, and the nearest word that is neither. -/
theorem test_decode_xfer5 : decodeTableWord 5 0b00011 = some .wake ∧ decodeTableWord 5 0b00010 = some .set4Bit ∧
    decodeTableWord 5 0b10011 = none := by decide
/-- 30_encoding.md R75 (b), (c): read/write 1, backlight 0; return home (41_display_commands.md R109). -/
theorem test_decode_never : decodeTableWord 8 0b00001110 = none ∧ decodeTableWord 8 0b00000100 = none ∧
    decodes (.xfer9 0b000000010#9) = false ∧ decodes (.xfer9 0b001000000#9) = false := by decide

/-! ### One step of each instruction -/

/-- An idle Ready block with the given answers ahead. -/
def ready (answers : List Status) : State := { State.reset with fsm := .ready, answers := answers }

/-- A block in the middle of a `clear`, with the given tasks and answers ahead. -/
def running (ts : List Task) (answers : List Status) : State :=
  { ready answers with op := some .clear, todo := ts }

/-- The state an outcome gives, or the reset state. -/
def after : Host.Outcome State Fault Refusal → State
  | .next t => t
  | .fault _ => State.reset
  | .refused _ => State.reset

/-- The refusal of an outcome. -/
def refusal : Host.Outcome State Fault Refusal → Option Refusal
  | .next _ => none
  | .fault _ => none
  | .refused r => some r

/-- 42_initialization.md R120, R128: Initializing from the acceptance; the 50 ms wait comes first (R121). -/
theorem test_initialise : (after (exec .initialise State.reset)).fsm = .initializing ∧
    (after (exec .initialise State.reset)).todo.head? = some (.wait 50) := by decide
/-- 95_test_vectors.md V7: `initialize` in Ready is refused. -/
theorem test_initialise_ready : refusal (exec .initialise (ready [])) = some (.wrongState .ready) := by decide
/-- 95_test_vectors.md S8: `setCursor(5, 20)` sends 0xCF. -/
theorem test_setCursor : (after (exec (.setCursor 5#8 20#8) (ready []))).todo = [.word (.xfer9 0x0CF#9)] := by decide
/-- 95_test_vectors.md V7: refused in Uninitialized. -/
theorem test_setCursor_early : refusal (exec (.setCursor 0#8 0#8) State.reset) = some (.wrongState .uninitialized) := by
  decide
/-- 95_test_vectors.md P1: `printString("Hi")` sends {1,0x48} {1,0x69}. -/
theorem test_printString : (after (exec (.printString [0x48#8, 0x69#8]) (ready []))).todo =
    [.word (.xfer9 0x148#9), .word (.xfer9 0x169#9)] := by decide
/-- 95_test_vectors.md V7: the gate is tested before the operand. -/
theorem test_printString_early : refusal (exec (.printString []) State.reset) = some (.wrongState .uninitialized) := by
  decide
/-- 95_test_vectors.md P3: `clear()` sends {0,0x01}. -/
theorem test_clear : (after (exec .clear (ready []))).todo = [.word (.xfer9 0x001#9)] := by decide
/-- 60_exceptions.md R157: refused while an operation runs. -/
theorem test_clear_busy : refusal (exec .clear (running [] [])) = some .callWhileBusy := by decide
/-- 95_test_vectors.md V2: `sendByte(0xA5, 1)`: 0xA1, then 0x51. -/
theorem test_sendByte : (after (exec (.sendByte 0xA5#8 0x01#8) (running [.wait 2] []))).todo =
    [.word (.narg 0xA1#8), .word (.narg 0x51#8), .wait 2] := by decide
theorem test_sendByte_badFlag : refusal (exec (.sendByte 0xA5#8 0x03#8) (running [] [])) =
    some (.modeFlagWithoutMeaning 0x03#8) := by decide
/-- 95_test_vectors.md V1: `sendNibble(0x41)`: frames 0x4D and 0x49 with their holds. -/
theorem test_sendNibble : (after (exec (.sendNibble 0x41#8) (running [] []))).todo =
    [.word (.frame 0x4D#8), .wait 1, .word (.frame 0x49#8), .wait 1] := by decide
theorem test_sendNibble_bad : refusal (exec (.sendNibble 0x4F#8) (running [] [])) =
    some (.nargWithoutMeaning 0x4F#8) := by decide
/-- 41_display_commands.md R101: NARG 0x30. -/
theorem test_wake : (after (exec .wake (running [] []))).todo = [.word (.narg 0x30#8)] := by decide
/-- 41_display_commands.md R102: NARG 0x20. -/
theorem test_set4Bit : (after (exec .set4Bit (running [] []))).todo = [.word (.narg 0x20#8)] := by decide
/-- 41_display_commands.md R103. -/
theorem test_functionSet : (after (exec .functionSet (running [] []))).todo = [.word (.internal 0x028#9)] := by decide
/-- 41_display_commands.md R104. -/
theorem test_displayControl : (after (exec .displayControl (running [] []))).todo = [.word (.internal 0x00C#9)] := by
  decide
/-- 41_display_commands.md R105: with its wait of 2 ms. -/
theorem test_clearDisplay : (after (exec .clearDisplay (running [] []))).todo =
    [.word (.internal 0x001#9), .wait 2] := by decide
/-- 41_display_commands.md R106. -/
theorem test_entryModeSet : (after (exec .entryModeSet (running [] []))).todo = [.word (.internal 0x006#9)] := by decide
/-- 41_display_commands.md R107: `addr` = 0x4F is 0xCF. -/
theorem test_setDdramAddr : (after (exec (.setDdramAddr 0x4F#7) (running [] []))).todo = [.word (.internal 0x0CF#9)] := by
  decide
/-- 41_display_commands.md R108: `rs` = 1. -/
theorem test_writeData : (after (exec (.writeData 0x41#8) (running [] []))).todo = [.word (.internal 0x141#9)] := by decide
/-- 40_nibble_encoder.md R90, 10_state.md R28: the frame 0x3C goes to address 0x27 with timeout 1000. -/
theorem test_frameEnHigh : (after (exec (.frameEnHigh 0x3#4 false) (running [] [.ok]))).trace =
    [.tx 0x27#7 0x3C#8 1000 .ok] ∧
    (after (exec (.frameEnHigh 0x3#4 false) (running [] [.ok]))).lines = [(0x27, 0x3C#8)] := by decide
/-- 60_exceptions.md R153: the first failing write of `initialize` (95_test_vectors.md V6, N = 1) ends in Faulted. -/
theorem test_frameEnHigh_fails :
    (after (exec (.frameEnHigh 0x3#4 false)
      { State.reset with fsm := .initializing, op := some .initialise, answers := [.fail] })).fsm = .faulted ∧
    (after (exec (.frameEnHigh 0x3#4 false) { ready [.fail] with lines := [(0x27, 0x38#8)] })).lines = [] := by decide
/-- 40_nibble_encoder.md R90: frame 0x49. -/
theorem test_frameEnLow : (after (exec (.frameEnLow 0x4#4 true) (running [.wait 1] [.ok]))).trace =
    [.tx 0x27#7 0x49#8 1000 .ok] ∧
    (after (exec (.frameEnLow 0x4#4 true) (running [.wait 1] [.ok]))).todo = [.wait 1] := by decide
/-- 60_exceptions.md R155: a failure in Ready leaves Ready. -/
theorem test_frameEnLow_fails : (after (exec (.frameEnLow 0x4#4 true) (running [.wait 1] [.fail]))).fsm = .ready ∧
    (after (exec (.frameEnLow 0x4#4 true) (running [.wait 1] [.fail]))).trace =
      [.tx 0x27#7 0x49#8 1000 .fail, .ret .fail] := by decide

/-- A word placed for the next step is the one the next step runs. -/
theorem test_withFetchWord : (after (step (State.reset.withFetchWord 8 0x00))).fsm = .initializing ∧
    (after (step (State.reset.withFetchWord 16 0x141))).todo = [.word (.internal 0x141#9)] ∧
    refusal (step (State.reset.withFetchWord 8 0x0E)) = some (.undecodable (.frameNeverSent 0x0E#8)) := by decide

/-! ### Readings -/

/-- 95_test_vectors.md V8: `printString("A")` latches (1,4) (1,1). -/
theorem test_latched : latched (byteEvents 0x41#8 0x01#8) = [(true, 0x4#4), (true, 0x1#4)] := by decide
/-- 93_implementation_defined.md U4: after the last column of a row the display's address is unknown. -/
theorem test_display_rowEnd :
    (View.store { View.unknown with leftToRight := true, addr := some 0x4F#7 } 0x41#8).addr = none ∧
    (View.store { View.unknown with leftToRight := true, addr := some 0x4E#7 } 0x41#8).addr = some 0x4F#7 := by decide

/-! ### Witnesses: states and operands that meet the hypotheses of each statement -/

/-- `n` answers `ok`, then one `fail`. -/
def failing (n : Nat) : List Status := List.replicate n .ok ++ [.fail]

theorem witness_answersOk : AnswersOk 24 { State.reset with answers := List.replicate 24 .ok } ∧
    AnswersOk 4 (ready (List.replicate 4 .ok)) ∧ AnswersOk 2 (running [] [.ok, .ok]) := by
  unfold AnswersOk; decide

theorem witness_failsAfter : FailsAfter 0 (ready (failing 0)) ∧ FailsAfter 3 (ready (failing 3)) ∧
    FailsAfter 0 { State.reset with answers := failing 0 } ∧ FailsAfter 23 { State.reset with answers := failing 23 } := by
  unfold FailsAfter AnswersOk; decide

theorem witness_DecodeOfEncode : (Instr.sendByte 0xFF#8 0x01#8).wf = true ∧ (Instr.sendNibble 0xF1#8).wf = true ∧
    (Instr.setDdramAddr 0x7F#7).wf = true := by decide

theorem witness_EncodeOfDecode :
    decode (.hostreq ⟨1#2, 5#8, 20#8, []⟩) = .ok (.setCursor 5#8 20#8) ∧
    Code.canonical (.hostreq ⟨1#2, 5#8, 20#8, []⟩) = true ∧
    decode (.frame 0xFD#8) = .ok (.frameEnHigh 0xF#4 true) ∧ Code.canonical (.frame 0xFD#8) = true :=
  ⟨rfl, rfl, rfl, rfl⟩

theorem witness_FieldsAreAssembled : ((0x00#8 : Byte) = 0x00#8 ∨ (0x00#8 : Byte) = 0x01#8) ∧
    ((0x01#8 : Byte) = 0x00#8 ∨ (0x01#8 : Byte) = 0x01#8) ∧ 0xF1#8 &&& 0x0E#8 = 0#8 := by decide

theorem witness_DdramAddress : cfg.WellFormed ∧
    ({ cfg with rows := 1, rowOffset := [0x70] } : Config).WellFormed := by decide

theorem witness_StepRunsTheDecodedInstruction :
    ((running [.word (.frame 0x3C#8)] []).port = none ∧
      (running [.word (.frame 0x3C#8)] []).todo = .word (.frame 0x3C#8) :: [] ∧
      decode (.frame 0x3C#8) = .ok (.frameEnHigh 0x3#4 false)) ∧
    (({ ready [] with port := some ⟨3#2, 0#8, 0#8, []⟩ } : State).op = none ∧
      ({ ready [] with port := some ⟨3#2, 0#8, 0#8, []⟩ } : State).todo = [] ∧
      decode (.hostreq ⟨3#2, 0#8, 0#8, []⟩) = .ok .clear) ∧
    (Quiet { ready [] with script := [⟨3#2, 0#8, 0#8, []⟩] } ∧
      ({ ready [] with script := [⟨3#2, 0#8, 0#8, []⟩] } : State).script = ⟨3#2, 0#8, 0#8, []⟩ :: []) :=
  ⟨⟨rfl, rfl, rfl⟩, ⟨rfl, rfl, rfl⟩, ⟨⟨rfl, rfl, rfl⟩, rfl⟩⟩

theorem witness_StepWithoutAnInstruction :
    ((running [.wait 1] []).port = none ∧ (running [.wait 1] []).todo = .wait 1 :: []) ∧
    (Quiet State.reset ∧ State.reset.script = []) ∧
    ((running [.word (.frame 0x00#8)] []).port = none ∧ decode (.frame 0x00#8) = .error (.frameNeverSent 0x00#8)) ∧
    (busy { running [] [] with port := some ⟨3#2, 0#8, 0#8, []⟩ } = true) :=
  ⟨⟨rfl, rfl⟩, ⟨⟨rfl, rfl, rfl⟩, rfl⟩, ⟨rfl, rfl⟩, rfl⟩

theorem witness_OperationEnd (i : Instr) : ({ ready [] with op := some i } : State).op = some i ∧
    ({ ready [] with op := some i } : State).todo = [] ∧ ({ ready [] with op := some i } : State).port = none :=
  ⟨rfl, rfl, rfl⟩

theorem witness_HostOperationsAreGated : (Instr.clear.isHost = true ∧ busy (running [] []) = true) ∧
    (busy State.reset = false ∧ admits State.reset.fsm .clear = false) ∧
    (busy (ready []) = false ∧ admits (ready []).fsm .initialise = false) := by decide

theorem witness_FormsWithoutMeaning : (0x02#8 &&& 0x0E#8 ≠ (0#8 : Byte)) ∧ (0x08#8 &&& 0x0E#8 ≠ (0#8 : Byte)) ∧
    ((0x02#8 : Byte) ≠ 0x00#8 ∧ (0x02#8 : Byte) ≠ 0x01#8) := by decide

/-- For `HostOperationsRunTheirLists` and `AcceptedOperationsEnd`: each of the four host operations. -/
theorem witness_HostOperations : Quiet State.reset ∧ admits State.reset.fsm .initialise = true ∧ Quiet (ready []) ∧
    admits (ready []).fsm (.setCursor 255#8 255#8) = true ∧ admits (ready []).fsm (.printString []) = true ∧
    admits (ready []).fsm .clear = true :=
  ⟨⟨rfl, rfl, rfl⟩, rfl, ⟨rfl, rfl, rfl⟩, rfl, rfl, rfl⟩

/-- For `InternalOperationsRunTheirLists`, `SendNibblePulsesEnable` and `SendByteSplitsHighNibbleFirst`: a running block
and every internal instruction. -/
theorem witness_InternalOperations : (running [.wait 2] []).port = none ∧
    ∀ i ∈ [Instr.sendByte 0xFF#8 0x01#8, .sendNibble 0xF0#8, .wake, .set4Bit, .functionSet, .displayControl,
      .clearDisplay, .entryModeSet, .setDdramAddr 0x7F#7, .writeData 0xFF#8, .frameEnHigh 0xF#4 true,
      .frameEnLow 0x0#4 false], i.isHost = false ∧ i.wf = true := by decide

/-- For `ListsRunToTheFirstFailingWrite`: both clauses, on the micro-sequence of `clear`. -/
theorem witness_ListsRun : (microFrames (micro .clear)).length = 4 ∧ AnswersOk 4 (ready (List.replicate 4 .ok)) ∧
    3 < (microFrames (micro .clear)).length ∧ FailsAfter 3 (ready (failing 3)) := by
  unfold FailsAfter AnswersOk; decide

/-- For `SendNibblePulsesEnable`: its three clauses. -/
theorem witness_SendNibble : 0xF1#8 &&& 0x0E#8 = (0#8 : Byte) ∧ AnswersOk 2 (running [] [.ok, .ok]) ∧
    FailsAfter 0 (running [] (failing 0)) ∧ FailsAfter 1 (running [] (failing 1)) := by
  unfold FailsAfter AnswersOk; decide

/-- For `SendByteSplitsHighNibbleFirst`: success, and a failure at each end. -/
theorem witness_SendByte : AnswersOk 4 (running [] (List.replicate 4 .ok)) ∧
    FailsAfter 0 (running [] (failing 0)) ∧ FailsAfter 3 (running [] (failing 3)) := by
  unfold FailsAfter AnswersOk; decide

/-- For `DisplayWordsSendTheirBytes`: a word of one nibble, and the word with the wait. -/
theorem witness_DisplayWords : (running [.wait 2] (List.replicate 4 .ok)).port = none ∧
    AnswersOk (framesSent (nibbleEvents 0x30#8)).length (running [.wait 2] (List.replicate 4 .ok)) ∧
    AnswersOk (framesSent (byteEvents 0x01#8 0#8 ++ [.delay 2])).length
      (running [.wait 2] (List.replicate 4 .ok)) := by
  unfold AnswersOk; decide

/-- For `FrameWriteSetsTheLines` and `FailedFrameWriteAborts`. -/
theorem witness_FrameWrites : (running [] [.ok]).answerAt 0 = .ok ∧ (running [] [.fail]).answerAt 0 = .fail ∧
    Memory.wf ({ running [] [.fail] with lines := [(0x27, 0x38#8)] } : State).lines := by decide

/-- For `UnfoldingChangesOnlyTheTasksAhead`: each of the ten instructions answers a next state. -/
theorem witness_Unfolding : ∀ i ∈ [Instr.sendByte 0xFF#8 0x01#8, .sendNibble 0xF0#8, .wake, .set4Bit, .functionSet,
    .displayControl, .clearDisplay, .entryModeSet, .setDdramAddr 0x7F#7, .writeData 0xFF#8],
    i.isHost = false ∧ refusal (exec i (running [] [])) = none := by decide

/-- For `InitialiseIssuesTheSevenSteps` and `DisplayIsReadyAfterInitialise`. -/
theorem witness_Initialise : Quiet { State.reset with answers := List.replicate 24 .ok } ∧
    ({ State.reset with answers := List.replicate 24 .ok } : State).fsm = .uninitialized ∧
    ({ State.reset with answers := List.replicate 24 .ok } : State).trace = [] :=
  ⟨⟨rfl, rfl, rfl⟩, rfl, rfl⟩

/-- For `SetCursorSendsTheAddress`, `PrintStringSendsEachCharacter` and `ClearWaitsBeforeReturning`. -/
theorem witness_ReadyOperations : Quiet (ready (List.replicate 4 .ok)) ∧ (ready (List.replicate 4 .ok)).fsm = .ready ∧
    AnswersOk (4 * [0x00#8].length) (ready (List.replicate 4 .ok)) := by
  refine ⟨⟨rfl, rfl, rfl⟩, rfl, ?_⟩
  unfold AnswersOk; decide

/-- For `OperationStopsAtItsFailingWrite`: the first and the last write of `initialize`, and the last of `clear`. -/
theorem witness_FailingWrite : Memory.wf State.reset.lines ∧ 0 < (microFrames (micro .initialise)).length ∧
    23 < (microFrames (micro .initialise)).length ∧ FailsAfter 23 { State.reset with answers := failing 23 } ∧
    3 < (microFrames (micro .clear)).length ∧ FailsAfter 3 (ready (failing 3)) := by
  unfold FailsAfter AnswersOk; decide

/-- For `CallsAreIndependentOfHistory`: two states that differ in what went before. -/
theorem witness_History : Quiet (ready []) ∧ Quiet { ready [] with curRow := 1#8, trace := [.delay 1] } ∧
    admits (ready []).fsm .clear = true ∧
    ∀ k, (ready []).answerAt k = State.answerAt { ready [] with curRow := 1#8, trace := [.delay 1] } k :=
  ⟨⟨rfl, rfl, rfl⟩, ⟨rfl, rfl, rfl⟩, rfl, fun _ => rfl⟩

/-- The first state of `initialize`, as a step of the machine reaches it. -/
def initialising (answers : List Status) : State :=
  after (exec .initialise { State.reset with answers := answers })

/-- The invariant at a busy state: for the statements about every step that assume it. -/
theorem witness_Inv_busy : Inv (initialising []) ∧ (initialising []).fsm = .initializing ∧
    (initialising []).op = some .initialise ∧ refusal (step (initialising [])) = none := by
  refine ⟨⟨by decide, ?_, by decide, by decide, ?_, ?_⟩, rfl, rfl, rfl⟩
  · intro e he
    have : e = .call .initialise := by simpa [initialising, after, exec, execInitialise, accept, start, emit, busy, admits,
      State.reset] using he
    subst this
    trivial
  · refine ⟨rfl, by decide, by decide, rfl⟩
  · refine ⟨⟨fun _ => rfl, fun _ => rfl⟩, fun i hi _ hne => ?_⟩
    have : (initialising []).op = some .initialise := rfl
    rw [this] at hi
    exact absurd (Option.some.inj hi).symm hne

/-- For `OnlyPrintStringWritesTheDataRegister`: a state about to write a frame of `clear`. -/
def clearing : State := running [.word (.frame 0x0C#8), .wait 1, .word (.frame 0x08#8), .wait 1,
  .word (.narg 0x10#8), .wait 2] [.ok]

theorem witness_OnlyPrintString : Inv clearing ∧ clearing.op = some .clear ∧ refusal (step clearing) = none ∧
    framesSent (eventsSince clearing (after (step clearing))) = [0x0C#8] := by
  refine ⟨⟨by decide, ?_, by decide, by decide, ?_, ?_⟩, rfl, by decide, by decide⟩
  · intro e he; cases he
  · refine ⟨rfl, by decide, by decide, rfl⟩
  · refine ⟨⟨fun h => ?_, fun h => ?_⟩, fun i _ _ _ => rfl⟩
    · cases h
    · cases h

/-- For `OnlyThreeStateTransitions`: each of its changes happens (acceptance, success, failure). -/
theorem witness_Transitions :
    (after (step { State.reset with port := some ⟨0#2, 0#8, 0#8, []⟩ })).fsm = .initializing ∧
    (after (step { initialising [] with todo := [], seq := 54 })).fsm = .ready ∧
    (after (step { initialising [.fail] with todo := [.word (.frame 0x3C#8)], seq := 1 })).fsm = .faulted := by decide

/-- A Faulted block at rest meets the invariant. -/
theorem witness_Faulted : Inv { State.reset with fsm := .faulted } ∧
    refusal (step { State.reset with fsm := .faulted }) = none ∧
    refusal (exec .clear { State.reset with fsm := .faulted }) = some (.wrongState .faulted) := by
  refine ⟨⟨by decide, ?_, by decide, by decide, ⟨rfl, rfl⟩, ?_⟩, rfl, rfl⟩
  · intro e he; cases he
  · refine ⟨⟨fun h => ?_, fun h => ?_⟩, fun i hi _ _ => ?_⟩
    · cases h
    · cases h
    · cases hi

/-- For the first clause of `FaultedIsTerminal`: the first write of `initialize` fails. -/
def firstWriteAhead : State :=
  { initialising [.fail] with
    todo := .word (.frame 0x3C#8) :: .wait 1 :: .word (.frame 0x38#8) :: .wait 1 :: initTasks.drop 2, seq := 1 }

theorem witness_FailureInInitialise : Inv firstWriteAhead ∧ firstWriteAhead.fsm = .initializing ∧
    anyFailed (eventsSince firstWriteAhead (after (step firstWriteAhead))) = true := by
  refine ⟨⟨by decide, ?_, by decide, by decide, ?_, ?_⟩, rfl, by decide⟩
  · intro e he
    have : e = .call .initialise := by
      simpa [firstWriteAhead, initialising, after, exec, execInitialise, accept, start, emit, busy, admits,
        State.reset] using he
    subst this
    trivial
  · refine ⟨rfl, by decide, by decide, rfl⟩
  · refine ⟨⟨fun _ => rfl, fun _ => rfl⟩, fun i hi _ hne => ?_⟩
    have : firstWriteAhead.op = some .initialise := rfl
    rw [this] at hi
    exact absurd (Option.some.inj hi).symm hne

/-- For the statements about every step that assume nothing but a next state: a write, an end of an operation, a scripted
call. -/
theorem witness_Steps : refusal (step clearing) = none ∧ refusal (step (running [] [])) = none ∧
    refusal (step { ready [] with script := [⟨3#2, 0#8, 0#8, []⟩] }) = none := by decide

/-- For `TextStandsWhereTheCursorWasSet`: the last column of the second row, and a whole row. -/
theorem witness_Text :
    (({ View.unknown with fourBit := true, leftToRight := true } : View).half = none) ∧
    min (255#8 : Byte).toNat 15 + [0x41#8].length ≤ 16 ∧
    min (0#8 : Byte).toNat 15 + (List.replicate 16 0x41#8).length ≤ 16 ∧ [0x41#8][0]? = some 0x41#8 := by decide

/-- For `DisplayIsUnknownAfterAFailure`: a Ready block whose last write failed. -/
theorem witness_LinkDown : Inv { ready [] with trace := [txFail 0x0C#8, .ret .fail], linkOk := false } ∧
    RunsTo { ready [] with trace := [txFail 0x0C#8, .ret .fail], linkOk := false }
      { ready [] with trace := [txFail 0x0C#8, .ret .fail], linkOk := false } := by
  refine ⟨⟨by decide, ?_, by decide, by decide, ⟨rfl, rfl⟩, ?_⟩, 0, rfl⟩
  · intro e he
    simp at he
    rcases he with rfl | rfl
    · exact ⟨rfl, rfl, by decide⟩
    · trivial
  · refine ⟨⟨fun h => ?_, fun h => ?_⟩, fun i hi _ _ => ?_⟩
    · cases h
    · cases h
    · cases hi

/-- For `ByteIsLatchedHighNibbleFirst`: both mode flags, a nibble argument, and answers for both clauses. -/
theorem witness_Latched : ((0x00#8 : Byte) = 0x00#8 ∨ (0x00#8 : Byte) = 0x01#8) ∧
    ((0x01#8 : Byte) = 0x00#8 ∨ (0x01#8 : Byte) = 0x01#8) ∧ 0xF1#8 &&& 0x0E#8 = (0#8 : Byte) ∧
    (running [.wait 2] (List.replicate 4 .ok)).port = none ∧ AnswersOk 2 (running [.wait 2] (List.replicate 4 .ok)) ∧
    AnswersOk 4 (running [.wait 2] (List.replicate 4 .ok)) := by
  unfold AnswersOk; decide

/-- For `SetCursorSaturates`: a busy state, a state that is not Ready, and a Ready idle one. -/
theorem witness_SetCursorSaturates : busy (running [.wait 1] []) = true ∧ State.reset.fsm ≠ .ready ∧
    (Quiet (ready []) ∧ (ready []).fsm = .ready) :=
  ⟨rfl, by decide, ⟨rfl, rfl, rfl⟩, rfl⟩

/-- For `SetCursorNamesThirtyTwoAddresses`: the ends of both ranges are named. -/
theorem witness_ThirtyTwoAddresses : ddramAddr cfg 0#8 0#8 = 0x00#7 ∧ ddramAddr cfg 0#8 255#8 = 0x0F#7 ∧
    ddramAddr cfg 1#8 0#8 = 0x40#7 ∧ ddramAddr cfg 255#8 255#8 = 0x4F#7 := by decide

/-- For `BlockFormsOnlyItsWords`: a state with formed words ahead whose step answers a next state; at the ends of the ranges
of address commands, what is formed and what is not. -/
theorem witness_FormsOnlyItsWords : FormsOnlyItsWords clearing ∧ refusal (step clearing) = none ∧
    blockForms none (.xfer9 0x08F#9) = true ∧ blockForms none (.xfer9 0x090#9) = false ∧
    blockForms none (.xfer9 0x0BF#9) = false ∧ blockForms none (.xfer9 0x0C0#9) = true ∧
    blockForms none (.xfer9 0x0CF#9) = true ∧ blockForms none (.xfer9 0x0D0#9) = false := by
  refine ⟨fun w hw => ?_, by decide⟩
  simp only [clearing, running, ready, List.mem_cons, Task.word.injEq, reduceCtorEq, List.not_mem_nil, or_false,
    false_or] at hw
  rcases hw with rfl | rfl | rfl <;> rfl

end Sys2Proof.Tests
end

section
/-! Proofs of the statements about 20_memory.md: what a frame's write does to the lines (O20), and what the events of a
step can be (O32). -/

namespace Sys2Proof.Machine

/-! ### The write of one frame -/

/-- Either frame instruction is one `TX` of the frame its fields make (30_encoding.md R60, 40_nibble_encoder.md R90). -/
theorem exec_frame (e : Bool) (n : Nibble) (r : Bool) (s : State) :
    exec (if e then .frameEnHigh n r else .frameEnLow n r) s = .next (transmit (frameOf cfg e n r) s) := by
  cases e <;> rfl

/-- The whole effect of a `TX` answered `ok`: its byte is stored at the expander's address (20_memory.md R42). -/
theorem transmit_eq_of_ok {b : Byte} {s : State} (h : s.answerAt 0 = .ok) :
    transmit b s = { s with seq := s.seq + 1, trace := s.trace ++ [txOk b],
                            lines := s.lines.write cfg.i2cAddr.toNat b,
                            answers := s.answers.tail, draws := s.draws + 1 } := by
  simp only [transmit_of_ok h, advance, memWrite, h, txOk, Memory.afterWrite, linkAfter]

/-- Settles O20: the lines are what the store of the frame at the expander's address makes of them. -/
theorem frameWriteSetsTheLines : Obligations.FrameWriteSetsTheLines := by
  intro s n r e h
  refine ⟨_, exec_frame e n r s, ?_⟩
  rw [transmit_eq_of_ok h]
  exact ⟨Memory.read_write_same _ _ _, fun _ ha => Memory.read_write_other _ _ ha, rfl⟩

/-! ### The fields of a frame -/

/-- The fields of a frame stand at their bit positions (30_encoding.md R60). -/
theorem frameOf_fields : ∀ (e : Bool) (n : Nibble) (r : Bool),
    (frameOf cfg e n r).extractLsb' 4 4 = n ∧ (frameOf cfg e n r).getLsbD 3 = true ∧
    (frameOf cfg e n r).getLsbD 2 = e ∧ (frameOf cfg e n r).getLsbD 1 = false ∧
    (frameOf cfg e n r).getLsbD 0 = r := by decide

/-- A frame is one of the patterns `nnnn110r` and `nnnn100r` (30_encoding.md R60). -/
theorem frameOf_pattern : ∀ (e : Bool) (n : Nibble) (r : Bool),
    frameOf cfg e n r &&& 0x0E#8 = 0x0C#8 ∨ frameOf cfg e n r &&& 0x0E#8 = 0x08#8 := by decide

/-! ### What one step emits -/

/-- The events that one step can add to the trace: none, one event, or a failing write with its `RET fail`. Every write
is of a frame, to the configured address, with the configured timeout. -/
inductive Emission : List Event → Prop where
  | silent : Emission []
  | call (i : Instr) : Emission [.call i]
  | delay (ms : Nat) : Emission [.delay ms]
  | retOk : Emission [.ret .ok]
  | written (e : Bool) (n : Nibble) (r : Bool) : Emission [txOk (frameOf cfg e n r)]
  | failed (e : Bool) (n : Nibble) (r : Bool) : Emission [txFail (frameOf cfg e n r), .ret .fail]

theorem eventsSince_of_trace {s t : State} {es : List Event} (h : t.trace = s.trace ++ es) : eventsSince s t = es := by
  simp [eventsSince, h]

theorem transmit_frameOf_emits (e : Bool) (n : Nibble) (r : Bool) (s : State) :
    ∃ es, Emission es ∧ (transmit (frameOf cfg e n r) s).trace = s.trace ++ es := by
  rcases transmit_cases (frameOf cfg e n r) s with ⟨ha, ht⟩ | ⟨ha, ht⟩
  · exact ⟨_, .written e n r, by simp [ht, ha, txOk]⟩
  · exact ⟨_, .failed e n r, by simp [ht, ha, txFail]⟩

theorem exec_emits {i : Instr} {s t : State} (h : exec i s = .next t) :
    ∃ es, Emission es ∧ t.trace = s.trace ++ es := by
  rcases exec_cases h with ⟨_, _, _, ts, _, rfl⟩ | ⟨_, ts, _, rfl⟩ | ⟨_, b, _, ⟨e, n, r, rfl⟩, rfl⟩
  · exact ⟨_, .call i, start_trace _ _ _ _⟩
  · exact ⟨_, .silent, by simp⟩
  · exact transmit_frameOf_emits e n r s

theorem step_emits {s t : State} (h : step s = .next t) : ∃ es, Emission es ∧ t.trace = s.trace ++ es := by
  rcases step_cases h with ⟨_, _, _, _, _, _, he⟩ | ⟨ms, _, _, _, rfl⟩ | ⟨i, _, _, _, rfl⟩ |
    ⟨_, s', _, _, hs, he⟩ | ⟨_, _, rfl⟩
  · simpa using exec_emits he
  · exact ⟨_, .delay ms, delay_trace _ _⟩
  · exact ⟨_, .retOk, finish_trace _ _⟩
  · have htr : s'.trace = s.trace := by rcases hs with rfl | ⟨_, rfl⟩ <;> rfl
    exact htr ▸ exec_emits he
  · exact ⟨_, .silent, by simp⟩

theorem eventsSince_emission {s t : State} (h : step s = .next t) : Emission (eventsSince s t) := by
  obtain ⟨es, hes, htr⟩ := step_emits h
  rwa [eventsSince_of_trace htr]

/-- A `TX` among the events of one step is the write of a frame (20_memory.md R41). -/
theorem Emission.tx_mem {es : List Event} {addr : DevAddr} {b : Byte} {ms : Nat} {a : Status} (h : Emission es)
    (hm : .tx addr b ms a ∈ es) :
    addr = cfg.i2cAddr ∧ ms = cfg.timeoutMs ∧ ∃ e n r, b = frameOf cfg e n r := by
  cases h with
  | written e n r =>
    obtain ⟨rfl, rfl, rfl, -⟩ : addr = _ ∧ b = _ ∧ ms = _ ∧ a = _ := by simpa [txOk] using hm
    exact ⟨rfl, rfl, e, n, r, rfl⟩
  | failed e n r =>
    obtain ⟨rfl, rfl, rfl, -⟩ : addr = _ ∧ b = _ ∧ ms = _ ∧ a = _ := by simpa [txFail] using hm
    exact ⟨rfl, rfl, e, n, r, rfl⟩
  | silent | call | delay | retOk => simp at hm

/-- Settles O32: every write a step emits is of a frame, whose fields are read off by `frameOf_fields`. -/
theorem everyWriteIsAFrameToTheExpander : Obligations.EveryWriteIsAFrameToTheExpander := by
  refine ⟨fun s t addr b ms a hstep hmem => ?_, frameOf_fields, rfl, rfl, rfl, rfl⟩
  obtain ⟨haddr, hms, e, n, r, rfl⟩ := (eventsSince_emission hstep).tx_mem hmem
  exact ⟨haddr, hms, frameOf_pattern e n r⟩

end Sys2Proof.Machine
end

section
/-! Proof of the statement about 30_encoding.md R71: the DDRAM address of a clamped position (O7). -/

namespace Sys2Proof.Machine

/-- Clamping names a row that `ROW_OFFSET` has, and the offset of that row leaves room for every clamped column
(00_scope.md R6). -/
theorem exists_rowOffset_clampRow {c : Config} (hwf : c.WellFormed) (row col : Byte) :
    ∃ o, c.rowOffset[clampRow c row]? = some o ∧ o + clampCol c col ≤ 0x7F := by
  obtain ⟨-, -, ⟨⟨hrows, -⟩, -⟩, hlen, hfit⟩ := hwf
  have hrow : clampRow c row < c.rowOffset.length := by
    rw [hlen]; unfold clampRow clampIndex; omega
  have hcol : clampCol c col ≤ c.cols - 1 := Nat.min_le_right _ _
  have hoff := hfit _ (List.getElem_mem hrow)
  exact ⟨_, List.getElem?_eq_getElem hrow, by omega⟩

/-- A sum below 0x80 is the address itself: the seven bits cut nothing off. -/
theorem ddramAddr_toNat {c : Config} {row col : Byte} {o : Nat} (ho : c.rowOffset[clampRow c row]? = some o)
    (hle : o + clampCol c col ≤ 0x7F) : (ddramAddr c row col).toNat = o + clampCol c col := by
  have hsum : ddramSum c row col = o + clampCol c col := by simp [ddramSum, ho]
  rw [ddramAddr, hsum, BitVec.toNat_ofNat]
  exact Nat.mod_eq_of_lt (by omega)

theorem clampRow_cfg (row : Byte) : clampRow cfg row = if row = 0#8 then 0 else 1 := by
  change min row.toNat 1 = _
  split
  case isTrue h => simp [h]
  case isFalse h =>
    have hne : row.toNat ≠ 0 := fun h0 => h (BitVec.eq_of_toNat_eq h0)
    omega

/-- With two rows of sixteen columns every row but the first is row 1 (30_encoding.md R71). -/
theorem rowOffset_cfg (row : Byte) :
    cfg.rowOffset[clampRow cfg row]? = some (if row = 0#8 then 0 else 0x40) := by
  rw [clampRow_cfg]; split <;> rfl

/-- Settles O7: every admitted configuration keeps the sum inside seven bits, and the default one is admitted. -/
theorem ddramAddressFitsSevenBits : Obligations.DdramAddressFitsSevenBits := by
  refine ⟨fun c row col hwf => ?_, fun row col => ?_⟩
  · obtain ⟨o, ho, hle⟩ := exists_rowOffset_clampRow hwf row col
    exact ⟨o, ho, ddramAddr_toNat ho hle, hle⟩
  · have hcol : clampCol cfg col = min col.toNat 15 := rfl
    rw [ddramAddr_toNat (rowOffset_cfg row) (by split <;> omega), hcol]
    split <;> simp

end Sys2Proof.Machine
end

section
/-! Proofs of the statements about 60_exceptions.md R153 and R154: a frame answered `fail` (O21), and the state Faulted
(O36). -/

namespace Sys2Proof.Machine

/-! ### A frame answered `fail` -/

/-- Only Initializing is changed by a failure (60_exceptions.md R153, R155). -/
theorem fsmAfterFailure_eq (f : Fsm) : fsmAfterFailure f = if f = .initializing then .faulted else f := by
  cases f <;> rfl

/-- The whole effect of a `TX` answered `fail`: the expander's lines are forgotten and the operation is aborted. -/
theorem transmit_eq_of_fail {b : Byte} {s : State} (h : s.answerAt 0 = .fail) :
    transmit b s = { s with op := none, todo := [], seq := 0, fsm := fsmAfterFailure s.fsm,
                            trace := s.trace ++ [txFail b, .ret .fail], lines := s.lines.forget cfg.i2cAddr.toNat,
                            linkOk := false, answers := s.answers.tail, draws := s.draws + 1 } := by
  simp [transmit_of_fail h, abort, emit, memWrite, h, txFail, Memory.afterWrite, linkAfter]

/-- Settles O21: forgetting the expander's address leaves every other one, and the rest is `transmit_eq_of_fail`. -/
theorem failedFrameWriteAborts : Obligations.FailedFrameWriteAborts := by
  intro s n r e hwf h
  refine ⟨_, exec_frame e n r s, ?_⟩
  rw [transmit_eq_of_fail h, fsmAfterFailure_eq]
  exact ⟨Memory.read_forget_same hwf _, fun _ ha => Memory.read_forget_other _ ha, rfl⟩

/-! ### What one step makes of `fsm` -/

/-- What one step can make of `fsm`, with the events it adds, when it begins in `f` with `op` running: keep it, start a
host operation, end the running one, or fail. -/
inductive FsmStep (f : Fsm) (op : Option Instr) : Fsm → List Event → Prop where
  | kept {es : List Event} (h : anyFailed es = false) : FsmStep f op f es
  | called {i : Instr} (hh : i.isHost = true) (ha : admits f i = true) : FsmStep f op (fsmAtStart i f) [.call i]
  | finished {i : Instr} (ho : op = some i) : FsmStep f op (if i = .initialise then .ready else f) [.ret .ok]
  | failed (b : Byte) : FsmStep f op (fsmAfterFailure f) [txFail b, .ret .fail]

theorem completion_fsm (i : Instr) (s : State) :
    (completion i s).fsm = if i = .initialise then .ready else s.fsm := by
  cases i <;> rfl

theorem transmit_fsmStep (b : Byte) (s : State) :
    FsmStep s.fsm s.op (transmit b s).fsm (eventsSince s (transmit b s)) := by
  rcases transmit_cases b s with ⟨ha, -⟩ | ⟨ha, -⟩
  · rw [transmit_eq_of_ok ha, eventsSince_of_trace rfl]
    exact .kept rfl
  · rw [transmit_eq_of_fail ha, eventsSince_of_trace rfl]
    exact .failed b

theorem exec_fsmStep {i : Instr} {s t : State} (h : exec i s = .next t) :
    FsmStep s.fsm s.op t.fsm (eventsSince s t) := by
  rcases exec_cases h with ⟨hh, -, ha, ts, -, rfl⟩ | ⟨-, ts, -, rfl⟩ | ⟨-, b, -, -, rfl⟩
  · rw [eventsSince_of_trace (start_trace _ _ _ _)]
    exact .called hh ha
  · rw [eventsSince_of_trace (es := []) (by simp)]
    exact .kept rfl
  · exact transmit_fsmStep b s

theorem step_fsmStep {s t : State} (h : step s = .next t) : FsmStep s.fsm s.op t.fsm (eventsSince s t) := by
  rcases step_cases h with ⟨_, _, _, _, _, _, he⟩ | ⟨ms, rest, _, _, rfl⟩ | ⟨i, _, ho, _, rfl⟩ |
    ⟨_, s', _, _, hs, he⟩ | ⟨_, _, rfl⟩
  · have hexec := exec_fsmStep he
    exact hexec
  · have hev := eventsSince_of_trace (s := s) (delay_trace ms { s with todo := rest })
    exact hev ▸ .kept rfl
  · rw [eventsSince_of_trace (finish_trace i s), finish_fsm, completion_fsm]
    exact .finished ho
  · have hexec := exec_fsmStep he
    rcases hs with rfl | ⟨_, rfl⟩ <;> exact hexec
  · rw [eventsSince_of_trace (es := []) (by simp)]
    exact .kept rfl

/-! ### Faulted -/

/-- No call is taken in Initializing or in Faulted (43_display_operations.md R133). -/
theorem ne_of_admits {f : Fsm} {i : Instr} (hh : i.isHost = true) (ha : admits f i = true) :
    f ≠ .initializing ∧ f ≠ .faulted := by
  cases i with
  | initialise =>
    have hf : f = .uninitialized := by simpa [admits] using ha
    simp [hf]
  | setCursor | printString | clear =>
    have hf : f = .ready := by simpa [admits] using ha
    simp [hf]
  | _ => cases hh

theorem admits_faulted {i : Instr} (hh : i.isHost = true) : admits .faulted i = false :=
  Bool.eq_false_iff.mpr fun ha => (ne_of_admits hh ha).2 rfl

/-- A step that emits a failing write treats `fsm` as R153 says, and its last event is `RET fail`. -/
theorem FsmStep.of_anyFailed {f f' : Fsm} {op : Option Instr} {es : List Event} (h : FsmStep f op f' es)
    (hf : anyFailed es = true) : f' = fsmAfterFailure f ∧ es.getLast? = some (.ret .fail) := by
  cases h with
  | kept hk => simp [hk] at hf
  | called => simp [anyFailed] at hf
  | finished => simp [anyFailed] at hf
  | failed b => exact ⟨rfl, rfl⟩

/-- Nothing leaves Faulted unless INITIALIZE is running, which the phase of `Inv` excludes. -/
theorem FsmStep.faulted_stays {f' : Fsm} {op : Option Instr} {es : List Event} (h : FsmStep .faulted op f' es)
    (hop : op ≠ some .initialise) : f' = .faulted := by
  cases h with
  | kept => rfl
  | called hh ha => simp [admits_faulted hh] at ha
  | @finished i ho =>
    have hi : i ≠ .initialise := fun hi => hop (by rw [ho, hi])
    exact if_neg hi
  | failed => rfl

/-- Settles O36: each clause on steps from what a step can make of `fsm`, the one on calls from the gate. -/
theorem faultedIsTerminal : Obligations.FaultedIsTerminal := by
  refine ⟨fun s t _ hfsm hstep hfail => ?_, fun s t hinv hfsm hstep => ?_, fun s i hfsm hh => ?_⟩
  · obtain ⟨hf, hlast⟩ := (step_fsmStep hstep).of_anyFailed hfail
    exact ⟨by rw [hf, hfsm]; rfl, hlast⟩
  · have hop : s.op ≠ some .initialise := fun ho => by simp [hinv.phase.1.mpr ho] at hfsm
    exact (hfsm ▸ step_fsmStep hstep).faulted_stays hop
  · obtain ⟨ts, -, he⟩ := exec_host hh
    rw [he, accept, hfsm, admits_faulted hh]
    cases busy s
    · exact .inl rfl
    · exact .inr rfl

end Sys2Proof.Machine
end

section
/-! The machine runs the flat lists (40_nibble_encoder.md R93): the run by steps of an instruction's tasks leads to
where the run of its micro-sequence leads. -/

namespace Sys2Proof.Machine

/-! ### Lists inside a running operation -/

theorem runWithin_of_fail {l : List Micro} {s : State} (h : (runMicro l s).2 = .fail) :
    runWithin l s = abort (runMicro l s).1 := by
  rcases hr : runMicro l s with ⟨t, r⟩
  obtain rfl : r = .fail := by simpa [hr] using h
  simp [runWithin, hr]

/-- A list run after one that succeeded goes on from there; after a failure nothing runs (60_exceptions.md R153). -/
theorem runWithin_append (l₁ l₂ : List Micro) (s : State) :
    runWithin (l₁ ++ l₂) s =
      match runMicro l₁ s with
      | (t, .ok) => runWithin l₂ t
      | (t, .fail) => abort t := by
  simp only [runWithin, runMicro_append]
  rcases runMicro l₁ s with ⟨t, _ | _⟩ <;> rfl

/-- A list that runs with tasks pushed on top leaves them for what follows, and an abort drops them. -/
theorem runWithin_push (l : List Micro) (ts : List Task) (s : State) :
    runWithin l (push ts s) =
      match runMicro l s with
      | (t, .ok) => push ts t
      | (t, .fail) => abort t := by
  obtain ⟨-, -, -, -, htodo, -, -⟩ := runMicro_frame l s
  simp only [runWithin, push, runMicro_todo, ← htodo]
  rcases runMicro l s with ⟨t, _ | _⟩ <;> rfl

/-! ### Tasks that run their lists -/

/-- Inside whatever runs, the instruction is accepted and the steps after it lead to where the run of its micro-sequence
leads (40_nibble_encoder.md R93). -/
def RunsItsList (i : Instr) : Prop :=
  ∀ s : State, s.port = none → ∃ t, exec i s = .next t ∧ RunsTo t (runWithin (micro i) s)

/-- The task is a wait, or the word of an instruction that runs its list. -/
def TaskRunsItsList : Task → Prop
  | .wait _ => True
  | .word w => ∃ i, decode w = .ok i ∧ RunsItsList i

theorem taskRunsItsList_wait (ms : Nat) : TaskRunsItsList (.wait ms) := trivial

/-- Tasks that each run their list run, one after the other, the list they stand for. -/
theorem push_runsTo {ts : List Task} (hts : ∀ x ∈ ts, TaskRunsItsList x) {s : State} (hp : s.port = none) :
    RunsTo (push ts s) (runWithin (expand ts) s) := by
  induction ts generalizing s with
  | nil => exact .refl s
  | cons x rest ih =>
    obtain ⟨hx, hrest⟩ := List.forall_mem_cons.mp hts
    cases x with
    | wait ms => exact .step (step_wait hp rfl) (ih hrest (s := delay ms s) hp)
    | word w =>
      obtain ⟨i, hd, hi⟩ := hx
      obtain ⟨t, he, ht⟩ := hi (push rest s) hp
      have hstep := step_word (s := push (.word w :: rest) s) hp rfl hd
      refine .step (hstep.trans he) (ht.trans ?_)
      obtain ⟨-, -, -, -, -, hport, -⟩ := runMicro_frame (micro i) s
      simp only [expand, hd, runWithin_append, runWithin_push]
      rcases hr : runMicro (micro i) s with ⟨u, _ | _⟩
      · exact ih hrest (by simpa [hr, hp] using hport)
      · exact .refl _

/-- An instruction that unfolds into tasks of the layer below runs its list if they run theirs. -/
theorem RunsItsList.of_unfolds {i : Instr} {ts : List Task} (he : ∀ s, exec i s = .next (push ts s))
    (hl : StandsFor ts (micro i)) (hts : ∀ x ∈ ts, TaskRunsItsList x) : RunsItsList i :=
  fun s hp => ⟨_, he s, hl.1 ▸ push_runsTo hts hp⟩

/-! ### Layer upon layer -/

/-- One frame is one `TX` of the running operation. -/
theorem runWithin_tx (b : Byte) (s : State) : runWithin [.tx b] s = transmit b s := by
  rcases transmit_cases b s with ⟨ha, ht⟩ | ⟨ha, ht⟩ <;> simp [runWithin, runMicro, ha, ht]

theorem runsItsList_frameEnHigh (n : Nibble) (r : Bool) : RunsItsList (.frameEnHigh n r) :=
  fun s _ => ⟨_, rfl, runWithin_tx _ s ▸ .refl _⟩

theorem runsItsList_frameEnLow (n : Nibble) (r : Bool) : RunsItsList (.frameEnLow n r) :=
  fun s _ => ⟨_, rfl, runWithin_tx _ s ▸ .refl _⟩

theorem runsItsList_sendNibble {a : Byte} (ha : a &&& nargZeroMask = 0#8) : RunsItsList (.sendNibble a) :=
  .of_unfolds (fun s => by simp [exec, execSendNibble, ha]) (standsFor_nibble ha) <| by
    simp [TaskRunsItsList, decode_frameHi ha, decode_frameLo ha, runsItsList_frameEnHigh, runsItsList_frameEnLow]

theorem runsItsList_sendByte {v m : Byte} (hm : isModeFlag cfg m = true) : RunsItsList (.sendByte v m) :=
  .of_unfolds (fun s => by simp [exec, execSendByte, hm]) (standsFor_byte hm) <| by
    simp [TaskRunsItsList, decode_narg (nibbleHi_legal hm), decode_narg (nibbleLo_legal hm),
      runsItsList_sendNibble (nibbleHi_legal hm), runsItsList_sendNibble (nibbleLo_legal hm)]

/-- The one call of `sendByte` that a word sent to the display makes (41_display_commands.md R103 to R108). -/
theorem taskRunsItsList_sendByte (v : Byte) (data : Bool) :
    ∀ x ∈ [runTask (.sendByte v (modeFlag cfg data))], TaskRunsItsList x := by
  have hm : isModeFlag cfg (modeFlag cfg data) = true := by cases data <;> rfl
  exact List.forall_mem_singleton.mpr ⟨_, decode_sendByte hm, runsItsList_sendByte hm⟩

/-- WAKE and SET4BIT are one call of `sendNibble` (41_display_commands.md R101, R102). -/
theorem RunsItsList.of_sendNibble {i : Instr} {a : Byte} (ha : a &&& nargZeroMask = 0#8)
    (he : ∀ s, exec i s = .next (push [runTask (.sendNibble a)] s)) (hm : micro i = nib a) : RunsItsList i := by
  have hts : StandsFor [runTask (.sendNibble a)] (nib a) :=
    standsFor_word (decode_narg ha) (by simp [Instr.wf, ha]) rfl
  exact .of_unfolds he (hm ▸ hts) (List.forall_mem_singleton.mpr ⟨_, decode_narg ha, runsItsList_sendNibble ha⟩)

/-- Every internal instruction runs its list, layer upon layer down to the frame (30_encoding.md R73). -/
theorem runsItsList_of_internal {i : Instr} (hh : i.isHost = false) (hw : i.wf = true) : RunsItsList i := by
  cases i with
  | frameEnHigh n r => exact runsItsList_frameEnHigh n r
  | frameEnLow n r => exact runsItsList_frameEnLow n r
  | sendNibble a => exact runsItsList_sendNibble (by simpa [Instr.wf] using hw)
  | sendByte v m => exact runsItsList_sendByte hw
  | wake => exact .of_sendNibble (a := nargOf wakeNibble 0#1) (by decide) (fun _ => rfl) rfl
  | set4Bit => exact .of_sendNibble (a := nargOf set4BitNibble 0#1) (by decide) (fun _ => rfl) rfl
  | functionSet | displayControl | entryModeSet | setDdramAddr _ =>
    exact .of_unfolds (fun _ => rfl) (standsFor_sendByte _ false) (taskRunsItsList_sendByte _ false)
  | writeData ch =>
    exact .of_unfolds (fun _ => rfl) (standsFor_sendByte ch true) (taskRunsItsList_sendByte ch true)
  | clearDisplay =>
    have hts := (standsFor_sendByte (clearDisplayByte cfg) false).append (standsFor_wait cfg.tClear)
    have hwait := List.forall_mem_singleton.mpr (taskRunsItsList_wait cfg.tClear)
    exact .of_unfolds (fun _ => rfl) hts (List.forall_mem_append.mpr ⟨taskRunsItsList_sendByte _ false, hwait⟩)
  | initialise | setCursor | printString | clear => cases hh

theorem taskRunsItsList_of_wf {x : Task} (h : x.wf = true) : TaskRunsItsList x := by
  cases x with
  | wait ms => exact taskRunsItsList_wait ms
  | word w =>
    simp only [Task.wf] at h
    split at h
    · rename_i i hd
      obtain ⟨hw, hh⟩ : i.wf = true ∧ i.isHost = false := by simpa using h
      exact ⟨i, hd, runsItsList_of_internal hh hw⟩
    · cases h

/-- A host operation called in the state it needs is accepted, and the steps after it run its micro-sequence
(40_nibble_encoder.md R93). -/
theorem exec_host_runsTo {i : Instr} {s : State} (hh : i.isHost = true) (hq : Quiet s) (ha : admits s.fsm i = true) :
    ∃ t, exec i s = .next t ∧ RunsTo t (runWithin (micro i) (start i (fsmAtStart i s.fsm) [] s)) := by
  obtain ⟨hop, htodo, hport⟩ := hq
  obtain ⟨ts, ⟨hexpand, hwf⟩, he⟩ := exec_host hh
  have hstart : start i (fsmAtStart i s.fsm) ts s = push ts (start i (fsmAtStart i s.fsm) [] s) := by
    simp [start, push, emit]
  refine ⟨_, (he s).trans (accept_of_idle (busy_eq_false.mpr ⟨hop, htodo⟩) ha), ?_⟩
  rw [hstart, ← hexpand]
  exact push_runsTo (fun x hx => taskRunsItsList_of_wf (hwf x hx)) hport

end Sys2Proof.Machine
end

section
/-! Proof of the statement about 60_exceptions.md R153 to R156: the write at which an operation stops (O28). -/

namespace Sys2Proof.Machine

/-! ### The run up to the first failing write -/

/-- Every element before the failing write is emitted, then that write, and nothing after it (60_exceptions.md R156). -/
theorem runMicro_of_failsAfter {l : List Micro} {k : Nat} {s : State} (hk : k < (microFrames l).length)
    (hf : FailsAfter k s) : (runMicro l s).2 = .fail ∧ (runMicro l s).1.trace = s.trace ++ cutEvents k l := by
  induction l generalizing k s with
  | nil => simp [microFrames] at hk
  | cons x rest ih =>
    cases x with
    | wait ms => simpa [runMicro, cutEvents] using ih (s := delay ms s) hk hf
    | tx b =>
      obtain ⟨hok, hfail⟩ := hf
      cases k with
      | zero => simp [runMicro, hfail, cutEvents, txFail]
      | succ k =>
        have h0 : s.answerAt 0 = .ok := hok 0 (by omega)
        have hnext : FailsAfter k (advance (memWrite cfg.i2cAddr b s)) :=
          ⟨fun j hj => by simpa using hok (j + 1) (by omega), by simpa using hfail⟩
        simpa [runMicro, h0, cutEvents, txOk] using ih (by simpa [microFrames] using hk) hnext

/-- A run that failed has just forgotten the expander's lines and dropped the ghost flag (10_state.md R28,
70_reset_and_hazards.md R186). -/
theorem runMicro_fail_lines {l : List Micro} {s : State} (hwf : Memory.wf s.lines) (h : (runMicro l s).2 = .fail) :
    (runMicro l s).1.lines.read 0x27 = none ∧ (runMicro l s).1.linkOk = false := by
  induction l generalizing s with
  | nil => cases h
  | cons x rest ih =>
    cases x with
    | wait ms => exact ih (s := delay ms s) hwf h
    | tx b =>
      simp only [runMicro] at h ⊢
      cases ha : s.answerAt 0 with
      | ok => exact ih (Memory.afterWrite_wf hwf _ _ _) (by simpa [ha] using h)
      | fail =>
        refine ⟨?_, by rw [memWrite_linkOk, ha]; rfl⟩
        rw [memWrite_lines, ha]
        exact Memory.read_forget_same hwf _

theorem framesSent_append (a b : List Event) : framesSent (a ++ b) = framesSent a ++ framesSent b := by
  induction a with
  | nil => rfl
  | cons e rest ih => cases e <;> simp [framesSent, ih]

/-- The writes up to and with the failing one are `k + 1`. -/
theorem framesSent_cutEvents_length {l : List Micro} {k : Nat} (hk : k < (microFrames l).length) :
    (framesSent (cutEvents k l)).length = k + 1 := by
  induction l generalizing k with
  | nil => simp [microFrames] at hk
  | cons x rest ih =>
    cases x with
    | wait ms => exact ih hk
    | tx b =>
      cases k with
      | zero => rfl
      | succ k => simpa [cutEvents, framesSent, txOk] using ih (by simpa [microFrames] using hk)

/-! ### The operation -/

/-- A failure makes Faulted of an INITIALIZE and leaves the state of the other operations (60_exceptions.md R154,
R155). -/
theorem fsmAfterFailure_fsmAtStart {f : Fsm} {i : Instr} (hh : i.isHost = true) (ha : admits f i = true) :
    fsmAfterFailure (fsmAtStart i f) = if i = .initialise then .faulted else f := by
  have hf := (ne_of_admits hh ha).1
  rw [fsmAfterFailure_eq, fsmAtStart]
  by_cases hi : i = .initialise
  · simp [hi]
  · simp [hi, hf]

/-- Settles O28: the machine runs the operation's flat list to its abort, whose events are those of the cut list. -/
theorem operationStopsAtItsFailingWrite : Obligations.OperationStopsAtItsFailingWrite := by
  intro i s k hh ⟨hop, htodo, hidle⟩ ha hwf hk hf
  obtain ⟨t, he, hrun⟩ := exec_host_runsTo hh ⟨hop, htodo, hidle⟩ ha
  obtain ⟨hfail, htrace⟩ := runMicro_of_failsAfter (s := start i (fsmAtStart i s.fsm) [] s) hk hf
  obtain ⟨hlines, hlink⟩ := runMicro_fail_lines (s := start i (fsmAtStart i s.fsm) [] s) hwf hfail
  obtain ⟨hfsm, hrow, hcol, -, -, hport, -⟩ := runMicro_frame (micro i) (start i (fsmAtStart i s.fsm) [] s)
  rw [runWithin_of_fail hfail] at hrun
  have hevents : (abort (runMicro (micro i) (start i (fsmAtStart i s.fsm) [] s)).1).trace =
      s.trace ++ .call i :: cutEvents k (micro i) ++ [.ret .fail] := by simp [htrace]
  refine ⟨_, ⟨t, he, hrun, hevents, ⟨rfl, rfl, hport.trans hidle⟩, rfl⟩, ?_, ?_, hrow, hcol, hlines, hlink⟩
  · rw [eventsSince_of_trace (hevents.trans (List.append_assoc _ _ _))]
    simp [framesSent, framesSent_append, framesSent_cutEvents_length hk]
  · rw [abort_fsm, hfsm, start_fsm, fsmAfterFailure_fsmAtStart hh ha]

end Sys2Proof.Machine
end

section
/-! Proofs of the statements about 30_encoding.md: decoding and encoding undo each other (O3, O4), the words of the map
(O2, O5), the assembly of fields (O6) and the admitted configuration (O8). -/

namespace Sys2Proof.Machine

/-! ### Decode after encode -/

/-- Settles O3: each constructor's word reads back, by the law of its format. -/
theorem decodeOfEncode : Obligations.DecodeOfEncode := by
  intro i hwf
  obtain ⟨hwake, hset4, hfun, hdisp, hclear, hentry⟩ := decode_fixedWords
  cases i with
  | initialise | setCursor | printString | clear => rfl
  | sendByte v m => exact decode_sendByte hwf
  | sendNibble a => exact decode_narg (by simpa [Instr.wf] using hwf)
  | wake => exact hwake
  | set4Bit => exact hset4
  | functionSet => exact hfun
  | displayControl => exact hdisp
  | clearDisplay => exact hclear
  | entryModeSet => exact hentry
  | setDdramAddr a => exact decode_setDdramAddr a
  | writeData ch => exact decode_writeData ch
  | frameEnHigh n r => exact decode_frameOf true n r
  | frameEnLow n r => exact decode_frameOf false n r

/-! ### Encode after decode -/

/-- `w` is the word of the well-formed instruction `i`. -/
def IsWordOf (w : Code) (i : Instr) : Prop := i.wf = true ∧ encode i = w

theorem isModeFlag_modeFlag (data : Bool) : isModeFlag cfg (modeFlag cfg data) = true := by cases data <;> rfl

/-- All four codes of R65 are assigned, and the fields that an operation does not use are 0 in a canonical request. -/
theorem encode_decodeHostReq {r : HostReq} (h : (Code.hostreq r).canonical = true) :
    encode (decodeHostReq r) = .hostreq r := by
  obtain ⟨op, row, col, text⟩ := r
  have hop : ∀ op : BitVec 2, op = 0#2 ∨ op = 1#2 ∨ op = 2#2 ∨ op = 3#2 := by decide
  rcases hop op with rfl | rfl | rfl | rfl <;> simp_all [Code.canonical, decodeHostReq, encode]

theorem decodeHostReq_isHost (r : HostReq) : (decodeHostReq r).isHost = true := by
  unfold decodeHostReq
  split_ifs <;> rfl

/-- A host request carries no operand that could be ill-formed. -/
theorem wf_of_isHost {i : Instr} (h : i.isHost = true) : i.wf = true := by
  cases i with
  | initialise | setCursor | printString | clear => rfl
  | _ => cases h

/-- The top bit and the low byte make up a nine-bit word (30_encoding.md R63). -/
theorem bit8_append_byte : ∀ w : BitVec 9, BitVec.ofBool (w.getLsbD 8) ++ w.extractLsb' 0 8 = w := by decide

theorem isWordOf_internal (w : BitVec 9) : IsWordOf (.internal w) (decodeInternal w) := by
  refine ⟨isModeFlag_modeFlag _, ?_⟩
  have hflag : (modeFlag cfg (w.getLsbD 8) == cfg.rs) = w.getLsbD 8 := by cases w.getLsbD 8 <;> rfl
  simp only [decodeInternal, encode, hflag, bit8_append_byte]

theorem isWordOf_narg {a : Byte} {i : Instr} (h : decodeNarg a = .ok i) : IsWordOf (.narg a) i := by
  unfold decodeNarg at h
  split at h
  · rename_i ha
    cases h
    exact ⟨by simp [Instr.wf, ha], rfl⟩
  · cases h

theorem isWordOf_xfer5 {w : BitVec 5} {i : Instr} (h : decodeXfer5 w = .ok i) : IsWordOf (.xfer5 w) i := by
  unfold decodeXfer5 at h
  split at h
  · rename_i hw
    cases h
    exact ⟨rfl, hw ▸ rfl⟩
  · split at h
    · rename_i hw
      cases h
      exact ⟨rfl, hw ▸ rfl⟩
    · cases h

/-- A command with bit 7 set is the address command of its other seven bits (30_encoding.md R72). -/
theorem setDdramByte_extract : ∀ b : Byte, b &&& cfg.cmdSetDdram = cfg.cmdSetDdram →
    setDdramByte cfg (b.extractLsb' 0 7) = b := by decide

theorem isWordOf_xfer9 {w : BitVec 9} {i : Instr} (h : decodeXfer9 w = .ok i) : IsWordOf (.xfer9 w) i := by
  have hw := bit8_append_byte w
  unfold decodeXfer9 at h
  cases hrs : w.getLsbD 8 with
  | true =>
    rw [hrs] at h hw
    cases h
    exact ⟨rfl, congrArg Code.xfer9 hw⟩
  | false =>
    rw [hrs] at h hw
    have hcmd : ∀ c : Byte, w.extractLsb' 0 8 = c → Code.xfer9 (0#1 ++ c) = .xfer9 w :=
      fun c hc => congrArg Code.xfer9 (hc ▸ hw)
    simp only [Bool.false_eq_true, if_false] at h
    split_ifs at h with hfun hdisp hclear hentry hddram <;> cases h
    · exact ⟨rfl, hcmd _ hfun⟩
    · exact ⟨rfl, hcmd _ hdisp⟩
    · exact ⟨rfl, hcmd _ hclear⟩
    · exact ⟨rfl, hcmd _ hentry⟩
    · exact ⟨rfl, hcmd _ (setDdramByte_extract _ hddram).symm⟩

/-- The frame is made of the fields that the decoder reads (30_encoding.md R60). -/
theorem frameOf_decoded (f : Byte) :
    (f &&& controlMask cfg = cfg.bl ||| cfg.en →
      frameOf cfg true (f.extractLsb' 4 4) (f &&& cfg.rs == cfg.rs) = f) ∧
    (f &&& controlMask cfg = cfg.bl →
      frameOf cfg false (f.extractLsb' 4 4) (f &&& cfg.rs == cfg.rs) = f) := by
  revert f; decide

theorem isWordOf_frame {f : Byte} {i : Instr} (h : decodeFrame f = .ok i) : IsWordOf (.frame f) i := by
  unfold decodeFrame at h
  split_ifs at h with hhi hlo <;> cases h
  · exact ⟨rfl, congrArg Code.frame ((frameOf_decoded f).1 hhi)⟩
  · exact ⟨rfl, congrArg Code.frame ((frameOf_decoded f).2 hlo)⟩

/-- Settles O4: format by format, the fields that the decoder reads are the whole word. -/
theorem encodeOfDecode : Obligations.EncodeOfDecode := by
  intro w i h
  cases w with
  | hostreq r =>
    cases h
    exact ⟨wf_of_isHost (decodeHostReq_isHost r), encode_decodeHostReq⟩
  | internal w =>
    cases h
    exact (isWordOf_internal w).imp_right fun he _ => he
  | narg a => exact (isWordOf_narg h).imp_right fun he _ => he
  | xfer5 w => exact (isWordOf_xfer5 h).imp_right fun he _ => he
  | xfer9 w => exact (isWordOf_xfer9 h).imp_right fun he _ => he
  | frame f => exact (isWordOf_frame h).imp_right fun he _ => he

/-! ### The words of the map -/

/-- Settles O2: each word is read by its format's decoder. -/
theorem specWordsDecode : Obligations.SpecWordsDecode :=
  ⟨rfl, rfl, rfl, rfl, rfl, rfl, rfl, rfl, rfl, rfl, rfl, rfl, rfl, rfl, rfl, rfl⟩

/-- Settles O5: a finite check for the formats that reject words; every data byte reads back. -/
theorem onlyWordsOfTheMapDecode : Obligations.OnlyWordsOfTheMapDecode := by
  refine ⟨by decide, by decide, by decide, by decide, fun b => ?_⟩
  have hdata : decode (.xfer9 (1#1 ++ b)) = .ok (.writeData b) := decode_writeData b
  simp [decodes, hdata]

/-! ### The assembly of fields -/

/-- Both nibble arguments of a byte carry its halves, zeros, and the mode flag (30_encoding.md R68). -/
theorem nibbleArgs_fields {m : Byte} (hm : m = 0x00#8 ∨ m = 0x01#8) : ∀ value : Byte,
    (nibbleHi cfg value m).extractLsb' 4 4 = value.extractLsb' 4 4 ∧
    (nibbleLo cfg value m).extractLsb' 4 4 = value.extractLsb' 0 4 ∧
    (nibbleHi cfg value m).extractLsb' 1 3 = 0#3 ∧ (nibbleLo cfg value m).extractLsb' 1 3 = 0#3 ∧
    (nibbleHi cfg value m).getLsbD 0 = m.getLsbD 0 ∧ (nibbleLo cfg value m).getLsbD 0 = m.getLsbD 0 := by
  rcases hm with rfl | rfl <;> decide

/-- The two frames of a nibble argument (30_encoding.md R69). -/
theorem framePair_eq : ∀ a : Byte, a &&& 0x0E#8 = 0#8 →
    frameHi cfg a = a ||| 0x0C#8 ∧ frameLo cfg a = a ||| 0x08#8 ∧ frameLo cfg a = frameHi cfg a &&& ~~~0x04#8 := by
  decide

/-- The address command as an OR, as a sum, and read back (30_encoding.md R72). -/
theorem setDdramByte_fields : ∀ a : DdramAddr, setDdramByte cfg a = 0x80#8 ||| a.setWidth 8 ∧
    (setDdramByte cfg a).toNat = 0x80 + a.toNat ∧ (setDdramByte cfg a).extractLsb' 0 7 = a := by decide

/-- Settles O6: the split of a byte, the frame pair, and the command bytes. -/
theorem fieldsAreAssembledAsSpecified : Obligations.FieldsAreAssembledAsSpecified :=
  ⟨fun value _ hm => ⟨rfl, rfl, nibbleArgs_fields hm value⟩, framePair_eq, setDdramByte_fields, rfl, rfl, rfl, rfl⟩

/-- Settles O8: the default masks are single distinct bits, and the row offsets fit their columns. -/
theorem defaultConfigurationIsAdmitted : Obligations.DefaultConfigurationIsAdmitted := by
  unfold Obligations.DefaultConfigurationIsAdmitted
  decide

end Sys2Proof.Machine
end

section
/-! What a step does to the whole state, said once; and with it the proofs of the statements about every step: the
invariant (O40, O41), the trace (O33, O38), the cursor (O37), `fsm` (O35), the script (O39) and the register select
(O34). -/

namespace Sys2Proof.Machine

/-! ### The effect of one step -/

/-- The state that one step makes of `s`: it stays idle, keeps a wait, unfolds a word, writes a frame, ends the running
operation, or starts one that was called (at the port, from the script, or by a word of an idle block). -/
inductive StepEffect (s : State) : State → Prop where
  | idle (ht : s.todo = []) (ho : s.op = none) : StepEffect s s
  | waited {ms : Nat} {rest : List Task} (ht : s.todo = .wait ms :: rest) :
      StepEffect s (delay ms { s with todo := rest })
  | unfolded {w : Code} {rest : List Task} {i : Instr} {ts : List Task} (ht : s.todo = .word w :: rest)
      (hd : decode w = .ok i) (hts : StandsFor ts (micro i)) : StepEffect s (push ts { s with todo := rest })
  | wrote {w : Code} {rest : List Task} {i : Instr} {e : Bool} {n : Nibble} {r : Bool} (ht : s.todo = .word w :: rest)
      (hd : decode w = .ok i) (hm : micro i = [.tx (frameOf cfg e n r)]) :
      StepEffect s (transmit (frameOf cfg e n r) { s with todo := rest })
  | finished {i : Instr} (ht : s.todo = []) (ho : s.op = some i) : StepEffect s (finish i s)
  | called {i : Instr} {ts : List Task} {port : Option HostReq} {script : List HostReq} (ho : s.op = none)
      (hh : i.isHost = true) (ha : admits s.fsm i = true) (hts : StandsFor ts (micro i))
      (hs : script = s.script ∨ Quiet s ∧ ∃ r, s.script = r :: script ∧ i = decodeHostReq r) :
      StepEffect s (start i (fsmAtStart i s.fsm) ts { s with port := port, script := script })

theorem stepEffect_of_word {s t : State} {w : Code} {rest : List Task} {i : Instr} (ht : s.todo = .word w :: rest)
    (hd : decode w = .ok i) (h : exec i { s with todo := rest } = .next t) : StepEffect s t := by
  rcases exec_cases h with ⟨hh, hb, ha, ts, hts, rfl⟩ | ⟨_, ts, hts, rfl⟩ | ⟨_, _, hm, ⟨e, n, r, rfl⟩, rfl⟩
  · exact .called (busy_eq_false.mp hb).1 hh ha hts (.inl rfl)
  · exact .unfolded ht hd hts
  · exact .wrote ht hd hm

/-- A request is always of a host operation. -/
theorem exec_decodeHostReq_next {r : HostReq} {s t : State} (h : exec (decodeHostReq r) s = .next t) :
    s.op = none ∧ admits s.fsm (decodeHostReq r) = true ∧ ∃ ts, StandsFor ts (micro (decodeHostReq r)) ∧
      t = start (decodeHostReq r) (fsmAtStart (decodeHostReq r) s.fsm) ts s := by
  have hh := decodeHostReq_isHost r
  rcases exec_cases h with ⟨_, hb, ha, hts⟩ | ⟨hi, _⟩ | ⟨hi, _⟩
  · exact ⟨(busy_eq_false.mp hb).1, ha, hts⟩
  · simp [hh] at hi
  · simp [hh] at hi

/-- Every step that answers a next state has one of the effects. -/
theorem stepEffect_of_step {s t : State} (h : step s = .next t) : StepEffect s t := by
  rcases fetch_cases s with ⟨_, _, hf⟩ | ⟨w, rest, ht, _, hf⟩ | ⟨ms, rest, ht, _, hf⟩ | ⟨i, ht, ho, _, hf⟩ |
    ⟨r, _, _, _, hf⟩ | ⟨r, rest, ht, ho, hp, hs, hf⟩ | ⟨ht, ho, _, _, hf⟩ <;>
    simp only [step, hf] at h
  · cases h
  · cases hd : decode w with
    | ok i => exact stepEffect_of_word ht hd (by simpa [hd] using h)
    | error e => simp [hd] at h
  · cases h; exact .waited ht
  · cases h; exact .finished ht ho
  · obtain ⟨hop, ha, ts, hts, rfl⟩ := exec_decodeHostReq_next h
    exact .called hop (decodeHostReq_isHost r) ha hts (.inl rfl)
  · obtain ⟨hop, ha, ts, hts, rfl⟩ := exec_decodeHostReq_next h
    exact .called hop (decodeHostReq_isHost r) ha hts (.inr ⟨⟨ho, ht, hp⟩, r, hs, rfl⟩)
  · cases h; exact .idle ht ho

/-! ### The trace -/

theorem anyFailed_append (a b : List Event) : anyFailed (a ++ b) = (anyFailed a || anyFailed b) := by
  induction a with
  | nil => rfl
  | cons e rest ih =>
    cases e with
    | tx addr byte ms answer => cases answer <;> simp [anyFailed, ih]
    | _ => simp [anyFailed, ih]

/-- What a step adds to the trace, with the turn of the transport and the ghost flag that go with it. -/
theorem StepEffect.output {s t : State} (h : StepEffect s t) :
    ∃ es, t.trace = s.trace ++ es ∧ (framesSent es).length ≤ 1 ∧ t.draws = s.draws + (framesSent es).length ∧
      (anyFailed es = true → ∃ b, es = [txFail b, .ret .fail] ∧ t.op = none ∧ t.todo = [] ∧ t.seq = 0) ∧
      t.linkOk = (s.linkOk && !anyFailed es) := by
  cases h with
  | idle | unfolded => exact ⟨[], by simp [framesSent, anyFailed]⟩
  | waited => exact ⟨_, delay_trace _ _, by simp [framesSent, anyFailed]⟩
  | @wrote w rest i e n r =>
    rcases transmit_cases (frameOf cfg e n r) { s with todo := rest } with ⟨ha, -⟩ | ⟨ha, -⟩
    · rw [transmit_eq_of_ok ha]
      exact ⟨_, rfl, by simp [framesSent, txOk, anyFailed]⟩
    · rw [transmit_eq_of_fail ha]
      exact ⟨_, rfl, by simp [framesSent, txFail, anyFailed]⟩
  | finished => exact ⟨_, finish_trace _ _, by simp [framesSent, anyFailed]⟩
  | called => exact ⟨_, start_trace _ _ _ _, by simp [framesSent, anyFailed]⟩

/-- Settles O33: of the effects only the write of a frame draws an answer, and a failing one leaves the block idle. -/
theorem oneOutstandingWrite : Obligations.OneOutstandingWrite := by
  intro s t h
  obtain ⟨es, htrace, hlen, hdraws, hfail, -⟩ := (stepEffect_of_step h).output
  exact ⟨es, htrace, hlen, hdraws, hfail⟩

theorem linkOk_of_step {s t : State} (h : step s = .next t) : t.linkOk = (s.linkOk && !anyFailed (eventsSince s t)) := by
  obtain ⟨es, htrace, -, -, -, hlink⟩ := (stepEffect_of_step h).output
  rwa [eventsSince_of_trace htrace]

/-- Settles O38: the flag goes with the step's events. -/
theorem linkFlagFallsForGood : Obligations.LinkFlagFallsForGood := fun _ _ h => linkOk_of_step h

/-- Settles O39: only the effect of a call touches the script. -/
theorem scriptedCallsWaitForTheReturn : Obligations.ScriptedCallsWaitForTheReturn := by
  intro s t h
  cases stepEffect_of_step h with
  | idle | waited | unfolded => exact .inl rfl
  | @wrote w rest i e n r =>
    rcases transmit_cases (frameOf cfg e n r) { s with todo := rest } with ⟨-, he⟩ | ⟨-, he⟩ <;> exact .inl (by simp [he])
  | finished => exact .inl (finish_script _ _)
  | called ho hh ha hts hs =>
    exact hs.imp id fun ⟨hq, r, hr, hi⟩ => ⟨hq, r, hr, eventsSince_of_trace (hi ▸ start_trace _ _ _ _)⟩

/-! ### The cursor -/

/-- A write leaves the cursor, whatever its answer. -/
theorem transmit_cursor (b : Byte) (s : State) :
    (transmit b s).curRow = s.curRow ∧ (transmit b s).curCol = s.curCol := by
  rcases transmit_cases b s with ⟨-, he⟩ | ⟨-, he⟩ <;> simp [he]

/-- The clamped row of the default geometry is a byte (00_scope.md R6). -/
theorem toNat_ofNat_clampRow (row : Byte) : (BitVec.ofNat 8 (clampRow cfg row)).toNat = min row.toNat 1 := by
  rw [BitVec.toNat_ofNat]
  exact Nat.mod_eq_of_lt (show min row.toNat 1 < 2 ^ 8 by omega)

theorem toNat_ofNat_clampCol (col : Byte) : (BitVec.ofNat 8 (clampCol cfg col)).toNat = min col.toNat 15 := by
  rw [BitVec.toNat_ofNat]
  exact Nat.mod_eq_of_lt (show min col.toNat 15 < 2 ^ 8 by omega)

/-- What the end of an operation makes of the cursor (10_state.md R22). -/
theorem finish_cursor (i : Instr) (s : State) :
    ((finish i s).curRow = s.curRow ∧ (finish i s).curCol = s.curCol) ∨
    ((finish i s).curRow = 0#8 ∧ (finish i s).curCol = 0#8 ∧ (i = .initialise ∨ i = .clear)) ∨
    ∃ row col, i = .setCursor row col ∧ (finish i s).curRow.toNat = min row.toNat 1 ∧
      (finish i s).curCol.toNat = min col.toNat 15 := by
  cases i with
  | initialise => exact .inr (.inl ⟨rfl, rfl, .inl rfl⟩)
  | clear => exact .inr (.inl ⟨rfl, rfl, .inr rfl⟩)
  | setCursor row col => exact .inr (.inr ⟨row, col, rfl, toNat_ofNat_clampRow row, toNat_ofNat_clampCol col⟩)
  | _ => exact .inl ⟨rfl, rfl⟩

/-- Settles O37: of the effects only an end writes the cursor. -/
theorem cursorWrittenOnlyAtSuccess : Obligations.CursorWrittenOnlyAtSuccess := by
  intro s t h
  cases stepEffect_of_step h with
  | idle | waited | unfolded | called => exact .inl ⟨rfl, rfl⟩
  | wrote => exact .inl (transmit_cursor _ _)
  | @finished i ht ho =>
    rcases finish_cursor i s with hkept | ⟨hrow, hcol, hi⟩ | ⟨row, col, rfl, hset⟩
    · exact .inl hkept
    · exact .inr ⟨ht, finish_trace i s, .inl ⟨hrow, hcol, hi.imp (by rw [ho, ·]) (by rw [ho, ·])⟩⟩
    · exact .inr ⟨ht, finish_trace _ s, .inr ⟨row, col, ho, hset⟩⟩

theorem cursorInGeometry_of_step {s t : State} (hs : CursorInGeometry s) (h : step s = .next t) :
    CursorInGeometry t := by
  rcases cursorWrittenOnlyAtSuccess s t h with ⟨hrow, hcol⟩ |
    ⟨-, -, ⟨hrow, hcol, -⟩ | ⟨row, col, -, hrow, hcol⟩⟩ <;>
    simp only [CursorInGeometry, hrow, hcol]
  · exact hs
  · exact ⟨Nat.zero_le _, Nat.zero_le _⟩
  · exact ⟨Nat.min_le_right _ _, Nat.min_le_right _ _⟩

/-! ### The writes: only legal ones -/

theorem frameOf_legal : ∀ (e : Bool) (n : Nibble) (r : Bool), LegalFrame (frameOf cfg e n r) := by decide

theorem Emission.legal {es : List Event} (h : Emission es) : ∀ e ∈ es, LegalEvent e := by
  intro e he
  cases e with
  | tx addr b ms a =>
    obtain ⟨haddr, hms, e, n, r, rfl⟩ := h.tx_mem he
    exact ⟨haddr, hms, frameOf_legal e n r⟩
  | _ => trivial

theorem legalTrace_of_step {s t : State} (hs : LegalTrace s) (h : step s = .next t) : LegalTrace t := by
  obtain ⟨es, hes, htrace⟩ := step_emits h
  rw [LegalTrace, htrace]
  exact List.forall_mem_append.mpr ⟨hs, hes.legal⟩

theorem transmit_lines (b : Byte) (s : State) :
    (transmit b s).lines = s.lines.afterWrite cfg.i2cAddr.toNat b (s.answerAt 0) := by
  rcases transmit_cases b s with ⟨-, he⟩ | ⟨-, he⟩ <;> simp [he]

theorem legalLines_of_step {s t : State} (hs : LegalLines s) (h : step s = .next t) : LegalLines t := by
  cases stepEffect_of_step h with
  | idle | waited | unfolded | called => exact hs
  | finished => rwa [LegalLines, finish_lines]
  | wrote =>
    obtain ⟨hwf, hcells⟩ := hs
    rw [LegalLines, transmit_lines]
    refine ⟨Memory.afterWrite_wf hwf _ _ _, fun x hx => ?_⟩
    rcases Memory.mem_afterWrite hx with rfl | hx
    · exact ⟨rfl, frameOf_legal _ _ _⟩
    · exact hcells x hx

theorem linkTellsTrace_of_step {s t : State} (hs : LinkTellsTrace s) (h : step s = .next t) : LinkTellsTrace t := by
  obtain ⟨es, htrace, -, -, -, hlink⟩ := (stepEffect_of_step h).output
  simp only [LinkTellsTrace] at hs ⊢
  rw [hlink, htrace, anyFailed_append, hs, Bool.not_or]

/-! ### The sequencer -/

theorem sequencerAtSeq_iff {s : State} {i : Instr} (ho : s.op = some i) :
    SequencerAtSeq s ↔ i.wf = true ∧ (∀ x ∈ s.todo, x.wf = true) ∧ s.seq ≤ (micro i).length ∧
      expand s.todo = (micro i).drop s.seq := by
  simp [SequencerAtSeq, ho]

theorem sequencerAtSeq_of_op {s : State} {i : Instr} (ho : s.op = some i) (hi : i.wf = true)
    (hwf : ∀ x ∈ s.todo, x.wf = true) (hle : s.seq ≤ (micro i).length) (hexp : expand s.todo = (micro i).drop s.seq) :
    SequencerAtSeq s :=
  (sequencerAtSeq_iff ho).mpr ⟨hi, hwf, hle, hexp⟩

theorem sequencerAtSeq_of_idle {s : State} (ho : s.op = none) (ht : s.todo = []) (hq : s.seq = 0) : SequencerAtSeq s := by
  simp [SequencerAtSeq, ho, ht, hq]

/-- With a task ahead an operation runs, and its micro-sequence goes on with the task. -/
theorem SequencerAtSeq.of_task {s : State} {x : Task} {rest : List Task} (h : SequencerAtSeq s)
    (ht : s.todo = x :: rest) : ∃ i, s.op = some i ∧ i.wf = true ∧ (∀ y ∈ rest, y.wf = true) ∧
      s.seq ≤ (micro i).length ∧ expand (x :: rest) = (micro i).drop s.seq := by
  cases ho : s.op with
  | none => simp [SequencerAtSeq, ho, ht] at h
  | some i =>
    obtain ⟨hi, hwf, hle, hexp⟩ := (sequencerAtSeq_iff ho).mp h
    rw [ht] at hwf hexp
    exact ⟨i, rfl, hi, (List.forall_mem_cons.mp hwf).2, hle, hexp⟩

/-- The element at a position of a list is followed by what stands from the next position on. -/
theorem drop_succ_of_drop_eq_cons {α : Type} {l rest : List α} {x : α} {n : Nat} (h : x :: rest = l.drop n) :
    n + 1 ≤ l.length ∧ rest = l.drop (n + 1) := by
  have hlen := congrArg List.length h
  have htail := congrArg List.tail h
  simp only [List.length_cons, List.length_drop, List.tail_cons, List.tail_drop] at hlen htail
  exact ⟨by omega, htail⟩

theorem sequencerAtSeq_of_step {s t : State} (hs : SequencerAtSeq s) (h : step s = .next t) : SequencerAtSeq t := by
  cases stepEffect_of_step h with
  | idle => exact hs
  | waited ht =>
    obtain ⟨i, ho, hi, hwf, -, hexp⟩ := hs.of_task ht
    obtain ⟨hle, hrest⟩ := drop_succ_of_drop_eq_cons hexp
    exact sequencerAtSeq_of_op ho hi hwf hle hrest
  | unfolded ht hd hts =>
    obtain ⟨i, ho, hi, hwf, hle, hexp⟩ := hs.of_task ht
    obtain ⟨hexpand, htasks⟩ := hts
    refine sequencerAtSeq_of_op ho hi (List.forall_mem_append.mpr ⟨htasks, hwf⟩) hle ?_
    simpa [expand_append, hexpand, expand, hd] using hexp
  | @wrote w rest _ e n r ht hd hm =>
    obtain ⟨i, ho, hi, hwf, -, hexp⟩ := hs.of_task ht
    simp only [expand, hd, hm, List.singleton_append] at hexp
    obtain ⟨hle, hrest⟩ := drop_succ_of_drop_eq_cons hexp
    rcases transmit_cases (frameOf cfg e n r) { s with todo := rest } with ⟨-, he⟩ | ⟨-, he⟩ <;> rw [he]
    · exact sequencerAtSeq_of_op ho hi hwf hle hrest
    · exact sequencerAtSeq_of_idle rfl rfl rfl
  | finished => exact sequencerAtSeq_of_idle rfl rfl rfl
  | called ho hh ha hts =>
    obtain ⟨hexpand, htasks⟩ := hts
    exact sequencerAtSeq_of_op rfl (wf_of_isHost hh) htasks (Nat.zero_le _) hexpand

/-! ### The phase -/

/-- The one state in which each host operation is taken (43_display_operations.md R133). -/
theorem admits_iff {f : Fsm} {i : Instr} (hh : i.isHost = true) :
    admits f i = true ↔ f = if i = .initialise then .uninitialized else .ready := by
  cases i with
  | initialise | setCursor | printString | clear => simp [admits]
  | _ => cases hh

theorem phaseMatches_of_idle {s : State} (ho : s.op = none) (hf : s.fsm ≠ .initializing) : PhaseMatches s := by
  simp [PhaseMatches, ho, hf]

theorem fsmAfterFailure_ne_initializing (f : Fsm) : fsmAfterFailure f ≠ .initializing := by cases f <;> decide

theorem phaseMatches_start {i : Instr} {f : Fsm} (hh : i.isHost = true) (ha : admits f i = true) (ts : List Task)
    (s : State) : PhaseMatches (start i (fsmAtStart i f) ts s) := by
  have hf := (admits_iff hh).mp ha
  by_cases hi : i = .initialise
  · simp [PhaseMatches, fsmAtStart, hi]
  · simp [PhaseMatches, fsmAtStart, hi, hf]

theorem phaseMatches_of_step {s t : State} (hs : PhaseMatches s) (h : step s = .next t) : PhaseMatches t := by
  cases stepEffect_of_step h with
  | idle | waited | unfolded => exact hs
  | @wrote w rest _ e n r =>
    rcases transmit_cases (frameOf cfg e n r) { s with todo := rest } with ⟨-, he⟩ | ⟨-, he⟩ <;> rw [he]
    · exact hs
    · exact phaseMatches_of_idle rfl (fsmAfterFailure_ne_initializing _)
  | @finished i ht ho =>
    refine phaseMatches_of_idle rfl ?_
    rw [finish_fsm, completion_fsm]
    split
    · decide
    · rename_i hi
      exact fun hf => hi (Option.some.inj (ho.symm.trans (hs.1.mp hf)))
  | called ho hh ha => exact phaseMatches_start hh ha _ _

/-! ### The invariant -/

/-- Settles O41: clause by clause. -/
theorem everyStepKeepsTheInvariant : Obligations.EveryStepKeepsTheInvariant := fun _ _ hs h =>
  { cursor := cursorInGeometry_of_step hs.cursor h
    trace := legalTrace_of_step hs.trace h
    lines := legalLines_of_step hs.lines h
    link := linkTellsTrace_of_step hs.link h
    sequencer := sequencerAtSeq_of_step hs.sequencer h
    phase := phaseMatches_of_step hs.phase h }

/-- Settles O40: at reset the block is idle, and trace and lines are empty. -/
theorem invariantHoldsAtReset : Obligations.InvariantHoldsAtReset where
  cursor := ⟨Nat.zero_le _, Nat.zero_le _⟩
  trace := List.forall_mem_nil _
  lines := ⟨State.reset_lines_wf, List.forall_mem_nil _⟩
  link := rfl
  sequencer := sequencerAtSeq_of_idle rfl rfl rfl
  phase := phaseMatches_of_idle rfl (by decide)

/-! ### The changes of `fsm` -/

/-- Settles O35: a call is taken in one state, an end of INITIALIZE has done its whole list, and a failure changes only
Initializing. -/
theorem onlyThreeStateTransitions : Obligations.OnlyThreeStateTransitions := by
  refine ⟨fun s t hinv h => ?_, rfl⟩
  cases stepEffect_of_step h with
  | idle | waited | unfolded => exact .inl rfl
  | @wrote w rest i e n r =>
    rcases transmit_cases (frameOf cfg e n r) { s with todo := rest } with ⟨ha, -⟩ | ⟨ha, -⟩
    · exact .inl (by rw [transmit_eq_of_ok ha])
    · rw [transmit_eq_of_fail ha, eventsSince_of_trace rfl]
      by_cases hf : s.fsm = .initializing
      · exact .inr (.inr (.inr ⟨hf, by simp [hf, fsmAfterFailure], _, rfl⟩))
      · exact .inl (by simp [fsmAfterFailure_eq, hf])
  | @finished i ht ho =>
    rw [eventsSince_of_trace (finish_trace i s), finish_fsm, completion_fsm]
    by_cases hi : i = .initialise
    · obtain ⟨-, -, hle, hexp⟩ := (sequencerAtSeq_iff ho).mp hinv.sequencer
      rw [ht] at hexp
      have hge := List.drop_eq_nil_iff.mp hexp.symm
      subst hi
      exact .inr (.inr (.inl ⟨hinv.phase.1.mpr ho, rfl, Nat.le_antisymm hle hge, rfl⟩))
    · exact .inl (by simp [hi])
  | @called i _ _ _ ho hh ha =>
    by_cases hi : i = .initialise
    · subst hi
      exact .inr (.inl ⟨(admits_iff hh).mp ha, rfl, eventsSince_of_trace (start_trace _ _ _ _)⟩)
    · exact .inl (by simp [fsmAtStart, hi])

/-! ### The register select -/

/-- The micro-operation is a wait, or writes a frame with the given register select. -/
def Micro.selects (data : Bool) : Micro → Bool
  | .wait _ => true
  | .tx b => b.getLsbD 0 == data

/-- Every frame of a byte has the register select of its mode flag (30_encoding.md R62). -/
theorem selects_bytePair (value : Byte) (data : Bool) :
    ∀ x ∈ bytePair value (modeFlag cfg data), x.selects data = true := by
  cases data <;> simp [bytePair, nib, Micro.selects, modeFlag, cfg]

/-- A host operation selects one register only, the data register exactly if it prints (20_memory.md R43). -/
theorem micro_selects {i : Instr} (hh : i.isHost = true) : ∃ data, (data = true ↔ ∃ text, i = .printString text) ∧
    ∀ x ∈ micro i, x.selects data = true := by
  cases i with
  | initialise => exact ⟨false, by simp, by decide⟩
  | setCursor row col => exact ⟨false, by simp, selects_bytePair _ false⟩
  | clear => exact ⟨false, by simp, List.forall_mem_append.mpr ⟨selects_bytePair _ false, by simp [Micro.selects]⟩⟩
  | printString text =>
    refine ⟨true, by simp, fun x hx => ?_⟩
    obtain ⟨ch, -, hmem⟩ := List.mem_flatMap.mp hx
    exact selects_bytePair ch true x hmem
  | _ => cases hh

/-- A frame that a step emits is one of the running operation's micro-sequence (10_state.md R24). -/
theorem frame_mem_micro {s t : State} {i : Instr} (hseq : SequencerAtSeq s) (ho : s.op = some i)
    (h : step s = .next t) : ∀ b ∈ framesSent (eventsSince s t), Micro.tx b ∈ micro i := by
  cases stepEffect_of_step h with
  | idle | unfolded => simp [eventsSince, framesSent]
  | waited => simp [eventsSince, framesSent]
  | finished => simp [eventsSince, framesSent]
  | called hn => simp [ho] at hn
  | @wrote w rest j e n r ht hd hm =>
    obtain ⟨i', ho', -, -, -, hexp⟩ := hseq.of_task ht
    obtain rfl := Option.some.inj (ho.symm.trans ho')
    have hmem : Micro.tx (frameOf cfg e n r) ∈ micro i := by
      refine List.mem_of_mem_drop (i := s.seq) (hexp ▸ ?_)
      simp [expand, hd, hm]
    rcases transmit_cases (frameOf cfg e n r) { s with todo := rest } with ⟨ha, -⟩ | ⟨ha, -⟩
    · rw [transmit_eq_of_ok ha, eventsSince_of_trace rfl]
      exact List.forall_mem_singleton.mpr hmem
    · rw [transmit_eq_of_fail ha, eventsSince_of_trace rfl]
      exact List.forall_mem_singleton.mpr hmem

/-- Settles O34: a frame that a step emits stands in the micro-sequence, whose frames select one register. -/
theorem onlyPrintStringWritesTheDataRegister : Obligations.OnlyPrintStringWritesTheDataRegister := by
  intro s t i hinv ho hh h b hb
  obtain ⟨data, hdata, hsel⟩ := micro_selects hh
  have hbit : b.getLsbD 0 = data := eq_of_beq (hsel _ (frame_mem_micro hinv.sequencer ho h b hb))
  rw [hbit, hdata]

/-! ### After a failure -/

/-- What every step keeps holds of every state a run reaches. -/
theorem runsTo_keeps {P : State → Prop} (hstep : ∀ s t, P s → step s = .next t → P t) {s t : State} (hs : P s)
    (h : RunsTo s t) : P t := by
  obtain ⟨k, hk⟩ := h
  induction k generalizing s with
  | zero => cases hk; exact hs
  | succ k ih =>
    simp only [Host.Core.run] at hk
    split at hk
    · rename_i u hu
      exact ih (hstep s u hs hu) hk
    · cases hk
    · cases hk

/-- Settles O45: the flag stays down, and by the invariant it says that the trace holds a failing write. -/
theorem displayIsUnknownAfterAFailure : Obligations.DisplayIsUnknownAfterAFailure := by
  intro s t hinv hlink hrun
  obtain ⟨hinv', hlink'⟩ := runsTo_keeps (P := fun s => Inv s ∧ s.linkOk = false)
    (fun s t ⟨hi, hl⟩ h => ⟨everyStepKeepsTheInvariant s t hi h, by simp [linkOk_of_step h, hl]⟩) ⟨hinv, hlink⟩ hrun
  have hfailed : anyFailed t.trace = true := by simpa [LinkTellsTrace, hlink'] using hinv'.link
  simp [displayAfter, hfailed]

end Sys2Proof.Machine
end

section
/-! Proof of the statement about 30_encoding.md R75 and 41_display_commands.md R109: the words the block forms (O47), and
the addresses of 20_memory.md R44 (O46). -/

namespace Sys2Proof.Machine

/-! ### The addresses of a clamped position -/

/-- Settles O46: the address of a position in row 0 is its column, in row 1 0x40 plus its column. -/
theorem setCursorNamesThirtyTwoAddresses : Obligations.SetCursorNamesThirtyTwoAddresses := by
  have haddr := ddramAddressFitsSevenBits.2
  refine fun a => ⟨?_, fun h => ?_⟩
  · rintro ⟨row, col, rfl⟩
    rw [haddr]
    split <;> omega
  · rcases h with hrow0 | ⟨hrow1, hle⟩
    · refine ⟨0#8, BitVec.ofNat 8 a.toNat, BitVec.eq_of_toNat_eq ?_⟩
      rw [haddr, BitVec.toNat_ofNat, if_pos rfl]
      omega
    · refine ⟨1#8, BitVec.ofNat 8 (a.toNat - 0x40), BitVec.eq_of_toNat_eq ?_⟩
      rw [haddr, BitVec.toNat_ofNat, if_neg (by decide)]
      omega

/-! ### Words formed from formed words -/

theorem blockForms_nibbleArgs {m : Byte} (hm : isModeFlag cfg m = true) (op : Option Instr) (v : Byte) :
    blockForms op (.narg (nibbleHi cfg v m)) = true ∧ blockForms op (.narg (nibbleLo cfg v m)) = true :=
  ⟨beq_iff_eq.mpr (nibbleHi_legal hm), beq_iff_eq.mpr (nibbleLo_legal hm)⟩

theorem blockForms_framePair (op : Option Instr) : ∀ a : Byte, a &&& nargZeroMask = 0#8 →
    blockForms op (.frame (frameHi cfg a)) = true ∧ blockForms op (.frame (frameLo cfg a)) = true := by
  simp only [blockForms]
  decide

theorem encode_eq_of_decode {w : Code} {i : Instr} (hd : decode w = .ok i) (hh : i.isHost = false) :
    encode i = w := by
  refine (encodeOfDecode w i hd).2 ?_
  cases w with
  | hostreq r =>
    cases hd
    simp [decodeHostReq_isHost] at hh
  | _ => rfl

/-! ### Tasks ahead -/

/-- The task is a wait, or a word that the block forms while `op` runs. -/
def Task.formed (op : Option Instr) : Task → Bool
  | .wait _ => true
  | .word w => blockForms op w

/-- The address commands that the block forms are those of the thirty-two addresses (20_memory.md R44). -/
theorem formed_setDdramAddr (op : Option Instr) (row col : Byte) :
    (runTask (.setDdramAddr (ddramAddr cfg row col))).formed op = true := by
  have hall : ∀ a : DdramAddr, a.toNat ≤ 0x0F ∨ (0x40 ≤ a.toNat ∧ a.toNat ≤ 0x4F) →
      blockForms none (encode (.setDdramAddr a)) = true := by decide
  exact hall _ ((setCursorNamesThirtyTwoAddresses _).mp ⟨row, col, rfl⟩)

/-- A data byte is formed whatever its value, as an XFER9 word and as the argument pair of `sendByte`. -/
theorem formed_writeData (op : Option Instr) (ch : Byte) : (runTask (.writeData ch)).formed op = true := by
  have hall : ∀ ch : Byte, blockForms none (encode (.writeData ch)) = true := by decide
  exact hall ch

theorem formsOnlyItsWords_iff {s : State} : FormsOnlyItsWords s ↔ ∀ x ∈ s.todo, x.formed s.op = true := by
  refine ⟨fun h x hx => ?_, fun h w hw => h _ hw⟩
  cases x with
  | wait ms => rfl
  | word w => exact h w hx

theorem FormsOnlyItsWords.push {s : State} {ts : List Task} (hs : FormsOnlyItsWords s)
    (hts : ∀ x ∈ ts, x.formed s.op = true) : FormsOnlyItsWords (push ts s) :=
  formsOnlyItsWords_iff.mpr (List.forall_mem_append.mpr ⟨hts, formsOnlyItsWords_iff.mp hs⟩)

/-- A word sent to the display as one `sendByte` has the same bits as its argument pair (30_encoding.md R63,
40_nibble_encoder.md R91). -/
theorem FormsOnlyItsWords.push_sendByte {s : State} (hs : FormsOnlyItsWords s) {v : Byte} {data : Bool}
    (hv : blockForms s.op (.xfer9 (BitVec.ofBool data ++ v)) = true) :
    FormsOnlyItsWords (Machine.push [runTask (.sendByte v (modeFlag cfg data))] s) := by
  refine hs.push (List.forall_mem_singleton.mpr ?_)
  cases data <;> exact hv

theorem formsOnlyItsWords_of_accept {i : Instr} {f : Fsm} {ts : List Task} {s t : State}
    (hts : ∀ x ∈ ts, x.formed (some i) = true) (h : accept i f ts s = .next t) : FormsOnlyItsWords t := by
  obtain ⟨-, -, rfl⟩ := accept_next h
  exact formsOnlyItsWords_iff.mpr hts

theorem FormsOnlyItsWords.transmit {s : State} (hs : FormsOnlyItsWords s) (b : Byte) :
    FormsOnlyItsWords (transmit b s) := by
  rcases transmit_cases b s with ⟨-, he⟩ | ⟨-, he⟩ <;> rw [he]
  · exact hs
  · exact formsOnlyItsWords_iff.mpr (List.forall_mem_nil _)

/-- An instruction whose own word is formed puts only formed words ahead. -/
theorem exec_formsOnlyItsWords {i : Instr} {s t : State} (hs : FormsOnlyItsWords s)
    (hi : i.isHost = false → blockForms s.op (encode i) = true) (h : exec i s = .next t) : FormsOnlyItsWords t := by
  have hw := wf_of_exec_next h
  cases i with
  | initialise => exact formsOnlyItsWords_of_accept (by decide) h
  | setCursor row col =>
    exact formsOnlyItsWords_of_accept (List.forall_mem_singleton.mpr (formed_setDdramAddr _ row col)) h
  | printString text =>
    exact formsOnlyItsWords_of_accept (List.forall_mem_map.mpr fun ch _ => formed_writeData _ ch) h
  | clear => exact formsOnlyItsWords_of_accept (by decide) h
  | sendByte v m =>
    obtain ⟨hhi, hlo⟩ := blockForms_nibbleArgs hw s.op v
    have he : exec (.sendByte v m) s = .next (push _ s) := if_pos hw
    cases he.symm.trans h
    exact hs.push (List.forall_mem_cons.mpr ⟨hhi, List.forall_mem_singleton.mpr hlo⟩)
  | sendNibble a =>
    have ha : a &&& nargZeroMask = 0#8 := by simpa [Instr.wf] using hw
    have he : exec (.sendNibble a) s = .next (push _ s) := if_pos ha
    cases he.symm.trans h
    exact hs.push (by simp [Task.formed, blockForms_framePair _ a ha])
  | wake | set4Bit => cases h; exact hs.push (List.forall_mem_singleton.mpr rfl)
  | functionSet | displayControl | entryModeSet => cases h; exact hs.push_sendByte rfl
  | setDdramAddr a | writeData ch => cases h; exact hs.push_sendByte (hi rfl)
  | clearDisplay =>
    cases h
    exact hs.push (List.forall_mem_cons.mpr ⟨rfl, List.forall_mem_singleton.mpr rfl⟩)
  | frameEnHigh n r | frameEnLow n r => cases h; exact hs.transmit _

theorem formsOnlyItsWords_of_step {s t : State} (hs : FormsOnlyItsWords s) (h : step s = .next t) :
    FormsOnlyItsWords t := by
  rcases step_cases h with ⟨w, rest, i, ht, -, hd, he⟩ | ⟨ms, rest, ht, -, rfl⟩ | ⟨i, -, -, -, rfl⟩ |
    ⟨r, s', ht, ho, hs', he⟩ | ⟨-, -, rfl⟩
  · have hrest : FormsOnlyItsWords { s with todo := rest } := fun x hx => hs x (ht ▸ List.mem_cons_of_mem _ hx)
    refine exec_formsOnlyItsWords hrest (fun hh => ?_) he
    rw [encode_eq_of_decode hd hh]
    exact hs w (ht ▸ List.mem_cons_self)
  · exact fun x hx => hs x (ht ▸ List.mem_cons_of_mem _ hx)
  · exact formsOnlyItsWords_iff.mpr (List.forall_mem_nil _)
  · refine exec_formsOnlyItsWords ?_ (fun hh => by simp [decodeHostReq_isHost] at hh) he
    rcases hs' with rfl | ⟨_, rfl⟩ <;> exact hs
  · exact hs

/-- The XFER9 command words that the block forms: the four fixed bytes and the addresses of both rows. -/
theorem blockForms_command (op : Option Instr) : ∀ b : Byte, blockForms op (.xfer9 (0#1 ++ b)) = true ↔
    b ∈ [0x28#8, 0x0C#8, 0x01#8, 0x06#8] ∨ (0x80 ≤ b.toNat ∧ b.toNat ≤ 0x8F) ∨ (0xC0 ≤ b.toNat ∧ b.toNat ≤ 0xCF) := by
  simp only [blockForms]
  decide

/-- Settles O47: the words ahead are formed step by step; which words these are is read off `blockForms`. -/
theorem blockFormsOnlyItsWords : Obligations.BlockFormsOnlyItsWords := by
  refine ⟨formsOnlyItsWords_iff.mpr (List.forall_mem_nil _), fun s t => formsOnlyItsWords_of_step, ?_, ?_, ?_,
    blockForms_command, fun _ _ => rfl, fun _ _ => rfl⟩
  · simp [blockForms]
  · simp [blockForms]
  · simp [blockForms]

end Sys2Proof.Machine
end

section
/-! Proofs of the statements about single steps and instructions: reset (O1), which step runs an instruction (O9) and which
does not (O10), the end of an operation (O11), the gate (O12), the refused forms (O13), the frame of the unfolding
instructions (O22) and the table of least durations (O29). -/

namespace Sys2Proof.Machine

/-- Settles O1: no event is in the trace, so the display is unknown, and no line is listed. -/
theorem resetIsUninitializedAndIdle : Obligations.ResetIsUninitializedAndIdle :=
  ⟨rfl, rfl, rfl, rfl, ⟨rfl, rfl, rfl⟩, rfl, rfl, fun _ => rfl, rfl⟩

/-! ### Steps from an idle block -/

theorem step_port {s : State} {r : HostReq} (ho : s.op = none) (ht : s.todo = []) (hp : s.port = some r) :
    step s = exec (decodeHostReq r) { s with port := none } := by
  simp [step, fetch, busy, ho, ht, hp, decode]

theorem step_script {s : State} {r : HostReq} {rest : List HostReq} (hq : Quiet s) (hs : s.script = r :: rest) :
    step s = exec (decodeHostReq r) { s with script := rest } := by
  obtain ⟨ho, ht, hp⟩ := hq
  simp [step, fetch, ho, ht, hp, hs, decode]

/-- Settles O9: a word ahead, a request at the port, or the next one of the script. -/
theorem stepRunsTheDecodedInstruction : Obligations.StepRunsTheDecodedInstruction := by
  refine ⟨fun s w rest i => step_word, fun s r i ho ht hp hd => ?_, fun s r rest i hq hs hd => ?_⟩
  · cases hd
    exact step_port ho ht hp
  · cases hd
    exact step_script hq hs

/-- Settles O10: by the case of `fetch` that each clause names. -/
theorem stepWithoutAnInstruction : Obligations.StepWithoutAnInstruction := by
  refine ⟨fun s ms rest => step_wait, fun s ⟨ho, ht, hp⟩ hs => ?_, fun s w rest e hp ht hd => ?_, fun s r hb hp => ?_⟩
  · simp [step, fetch, ho, ht, hp, hs]
  · simp [step, fetch_word hp ht, hd]
  · simp [step, fetch, hb, hp]

/-- Settles O11: the step is `finish`, whose writes are those of `completion`. -/
theorem operationEndWritesResults : Obligations.OperationEndWritesResults := by
  intro s i ho ht hp
  refine ⟨finish i s, step_finished hp ht ho, ?_, by rw [finish_fsm, completion_fsm], ?_⟩
  · obtain ⟨fsm, curRow, curCol, seq, op, todo, lines, trace, linkOk, answers, draws, port, script⟩ := s
    cases ht
    cases i <;> rfl
  · cases i with
    | setCursor row col => exact ⟨toNat_ofNat_clampRow row, toNat_ofNat_clampCol col⟩
    | _ => exact ⟨rfl, rfl⟩

/-! ### The gate and the refused forms -/

theorem accept_of_busy {i : Instr} {f : Fsm} {ts : List Task} {s : State} (hb : busy s = true) :
    accept i f ts s = .refused .callWhileBusy := by simp [accept, hb]

theorem accept_of_not_admits {i : Instr} {f : Fsm} {ts : List Task} {s : State} (hb : busy s = false)
    (ha : admits s.fsm i = false) : accept i f ts s = .refused (.wrongState s.fsm) := by simp [accept, hb, ha]

/-- Settles O12: a host operation is an `accept`, which tests `busy` and then the state. -/
theorem hostOperationsAreGated : Obligations.HostOperationsAreGated := by
  refine ⟨fun i s hh hb => ?_, fun i s hh hb ha => ?_, fun f => ⟨admits_iff rfl, admits_iff rfl, fun _ _ => admits_iff rfl,
    fun _ => admits_iff rfl⟩⟩
  · obtain ⟨ts, -, he⟩ := exec_host hh
    rw [he, accept_of_busy hb]
  · obtain ⟨ts, -, he⟩ := exec_host hh
    rw [he, accept_of_not_admits hb ha]

theorem isModeFlag_iff (m : Byte) : isModeFlag cfg m = true ↔ m = 0x00#8 ∨ m = 0x01#8 := by
  simp [isModeFlag, cfg]

/-- Settles O13: each of the two instructions tests its operand first. -/
theorem formsWithoutMeaningAreRefused : Obligations.FormsWithoutMeaningAreRefused := by
  refine ⟨fun a s ha => if_neg ha, fun value m s h0 h1 => if_neg ?_⟩
  rw [isModeFlag_iff]
  exact not_or.mpr ⟨h0, h1⟩

/-! ### The frame of the unfolding instructions -/

/-- An internal instruction other than the frames stands for more than one micro-operation. -/
theorem one_lt_length_micro {i : Instr} (hh : i.isHost = false) (hhi : ∀ n r, i ≠ .frameEnHigh n r)
    (hlo : ∀ n r, i ≠ .frameEnLow n r) : 1 < (micro i).length := by
  cases i with
  | frameEnHigh n r => exact absurd rfl (hhi n r)
  | frameEnLow n r => exact absurd rfl (hlo n r)
  | initialise | setCursor | printString | clear => cases hh
  | _ => simp [micro, bytePair, nib]

/-- Settles O22: such an instruction only pushes tasks, and they stand for something, so there are some. -/
theorem unfoldingChangesOnlyTheTasksAhead : Obligations.UnfoldingChangesOnlyTheTasksAhead := by
  intro i s t hh hhi hlo h
  have hlen := one_lt_length_micro hh hhi hlo
  rcases exec_cases h with ⟨hi, -⟩ | ⟨-, ts, ⟨hexp, -⟩, rfl⟩ | ⟨-, b, hm, -⟩
  · simp [hh] at hi
  · refine ⟨rfl, ⟨ts, ?_, rfl⟩, fun _ => rfl⟩
    rintro rfl
    simp [← hexp, expand] at hlen
  · simp [hm] at hlen

/-! ### Least durations -/

theorem microFrames_append (a b : List Micro) : microFrames (a ++ b) = microFrames a ++ microFrames b := by
  induction a with
  | nil => rfl
  | cons x rest ih => cases x <;> simp [microFrames, ih]

theorem microWaits_append (a b : List Micro) : microWaits (a ++ b) = microWaits a ++ microWaits b := by
  induction a with
  | nil => rfl
  | cons x rest ih => cases x <;> simp [microWaits, ih]

/-- Each character costs a byte: four writes and four waits of 1 ms. -/
theorem printString_durations (text : List Byte) :
    (microFrames (micro (.printString text))).length = 4 * text.length ∧
    (microWaits (micro (.printString text))).length = 4 * text.length ∧
    (microWaits (micro (.printString text))).sum = 4 * text.length := by
  induction text with
  | nil => exact ⟨rfl, rfl, rfl⟩
  | cons ch rest ih =>
    obtain ⟨hframes, hwaits, hsum⟩ := ih
    have hcons : micro (.printString (ch :: rest)) = bytePair ch cfg.rs ++ micro (.printString rest) := rfl
    have hframes4 : (microFrames (bytePair ch cfg.rs)).length = 4 := rfl
    have hwaits4 : microWaits (bytePair ch cfg.rs) = [1, 1, 1, 1] := rfl
    simp only [hcons, microFrames_append, microWaits_append, List.length_append, List.sum_append, hframes, hwaits, hsum,
      hframes4, hwaits4, List.length_cons, List.length_nil, List.sum_cons, List.sum_nil]
    omega

/-- Settles O29: read off the lists, for `printString` by induction over the text. -/
theorem leastDurations : Obligations.LeastDurations :=
  ⟨⟨rfl, rfl, rfl⟩, ⟨rfl, rfl, rfl⟩, fun _ _ => ⟨rfl, rfl⟩, printString_durations, fun _ => ⟨rfl, rfl⟩,
    fun _ _ => ⟨rfl, rfl⟩⟩

end Sys2Proof.Machine
end

section
/-! Proofs of the statements about 40_nibble_encoder.md: the run of a list (O16), the internal operations as their lists
(O15), `sendNibble` (O17), `sendByte` (O18) and the words sent to the display (O19). -/

namespace Sys2Proof.Machine

/-! ### The answers ahead -/

/-- The next `n` answers are all `ok`, or one of them is the first failure. -/
theorem answersOk_or_failsAfter (n : Nat) (s : State) : AnswersOk n s ∨ ∃ k, k < n ∧ FailsAfter k s := by
  induction n with
  | zero => exact .inl fun k hk => absurd hk (Nat.not_lt_zero k)
  | succ n ih =>
    rcases ih with hok | ⟨k, hk, hf⟩
    · cases ha : s.answerAt n with
      | ok => exact .inl fun k hk => (Nat.lt_succ_iff_lt_or_eq.mp hk).elim (hok k) (· ▸ ha)
      | fail => exact .inr ⟨n, Nat.lt_succ_self n, hok, ha⟩
    · exact .inr ⟨k, Nat.lt_succ_of_lt hk, hf⟩

/-- An answered write leaves one answer less to come. -/
theorem AnswersOk.after_write {n : Nat} {s : State} (h : AnswersOk (n + 1) s) (b : Byte) :
    AnswersOk n (advance (memWrite cfg.i2cAddr b s)) :=
  fun k hk => by simpa using h (k + 1) (by omega)

/-! ### The run of a list -/

/-- The whole effect of a list whose writes are all answered `ok` (40_nibble_encoder.md R93): the lines change at the
expander's address only (20_memory.md R42). -/
theorem runMicro_of_answersOk {l : List Micro} {s : State} (hok : AnswersOk (microFrames l).length s) :
    ∃ lines, runMicro l s = ({ s with seq := s.seq + l.length, trace := s.trace ++ microEvents l, lines := lines,
                                      answers := s.answers.drop (microFrames l).length,
                                      draws := s.draws + (microFrames l).length }, .ok) ∧
      ∀ a, a ≠ 0x27 → lines.read a = s.lines.read a := by
  induction l generalizing s with
  | nil => exact ⟨s.lines, by simp [runMicro, microEvents, microFrames], fun _ _ => rfl⟩
  | cons x rest ih =>
    cases x with
    | wait ms =>
      obtain ⟨lines, hrun, hread⟩ := ih (s := delay ms s) hok
      refine ⟨lines, ?_, hread⟩
      simp only [runMicro, hrun]
      simp [microEvents, microFrames, Nat.add_assoc, Nat.add_comm 1]
    | tx b =>
      have ha : s.answerAt 0 = .ok := hok 0 (Nat.succ_pos _)
      obtain ⟨lines, hrun, hread⟩ := ih (hok.after_write b)
      refine ⟨lines, ?_, fun a hne => (hread a hne).trans (Memory.read_afterWrite_other _ _ _ hne)⟩
      simp only [runMicro, ha, hrun]
      simp [ha, linkAfter, microEvents, microFrames, txOk, Nat.add_assoc, Nat.add_comm 1]

/-- Settles O16: the run of a list to its end, and to its first failing write. -/
theorem listsRunToTheFirstFailingWrite : Obligations.ListsRunToTheFirstFailingWrite := by
  refine fun l s => ⟨fun hok => ?_, fun k hk hf => runMicro_of_failsAfter hk hf⟩
  obtain ⟨lines, hrun, -⟩ := runMicro_of_answersOk hok
  rw [hrun]
  exact ⟨rfl, rfl, rfl⟩

theorem runWithin_of_answersOk {l : List Micro} {s : State} (hok : AnswersOk (microFrames l).length s) :
    ∃ lines, runWithin l s = { s with seq := s.seq + l.length, trace := s.trace ++ microEvents l, lines := lines,
                                      answers := s.answers.drop (microFrames l).length,
                                      draws := s.draws + (microFrames l).length } ∧
      ∀ a, a ≠ 0x27 → lines.read a = s.lines.read a := by
  obtain ⟨lines, hrun, hread⟩ := runMicro_of_answersOk hok
  exact ⟨lines, by rw [runWithin, hrun], hread⟩

theorem runWithin_of_failsAfter {l : List Micro} {k : Nat} {s : State} (hk : k < (microFrames l).length)
    (hf : FailsAfter k s) : (runWithin l s).trace = s.trace ++ cutEvents k l ++ [.ret .fail] ∧
      (runWithin l s).todo = [] ∧ (runWithin l s).op = none := by
  obtain ⟨hfail, htrace⟩ := runMicro_of_failsAfter hk hf
  rw [runWithin_of_fail hfail]
  exact ⟨by rw [abort_trace, htrace], rfl, rfl⟩

/-- Settles O15: layer upon layer down to the frames. -/
theorem internalOperationsRunTheirLists : Obligations.InternalOperationsRunTheirLists :=
  fun _ s hh hw hp => runsItsList_of_internal hh hw s hp

/-! ### The events of a list -/

theorem microEvents_append (a b : List Micro) : microEvents (a ++ b) = microEvents a ++ microEvents b := by
  induction a with
  | nil => rfl
  | cons x rest ih => cases x <;> simp [microEvents, ih]

theorem microEvents_length (l : List Micro) : (microEvents l).length = l.length := by
  induction l with
  | nil => rfl
  | cons x rest ih => cases x <;> simp [microEvents, ih]

theorem framesSent_microEvents (l : List Micro) : framesSent (microEvents l) = microFrames l := by
  induction l with
  | nil => rfl
  | cons x rest ih => cases x <;> simp [microEvents, microFrames, framesSent, txOk, ih]

/-- The frames sent up to the failing write are the first ones of the list. -/
theorem framesSent_cutEvents (k : Nat) (l : List Micro) : framesSent (cutEvents k l) = (microFrames l).take (k + 1) := by
  induction l generalizing k with
  | nil => rfl
  | cons x rest ih =>
    cases x with
    | wait ms => exact ih k
    | tx b =>
      cases k with
      | zero => rfl
      | succ k => simp [cutEvents, framesSent, txOk, microFrames, ih]

/-- The events of `NIB(a)` (40_nibble_encoder.md R90, 30_encoding.md R69). -/
theorem microEvents_nib {a : Byte} (ha : a &&& 0x0E#8 = 0#8) : microEvents (nib a) = nibbleEvents a := by
  obtain ⟨hhi, hlo, -⟩ := framePair_eq a ha
  rw [nibbleEvents, ← hhi, ← hlo]
  rfl

theorem bytePair_eq (value m : Byte) : bytePair value m = nib (nibbleHi cfg value m) ++ nib (nibbleLo cfg value m) := rfl

theorem microEvents_bytePair {m : Byte} (hm : m = 0x00#8 ∨ m = 0x01#8) (value : Byte) :
    microEvents (bytePair value m) = byteEvents value m := by
  have hflag := (isModeFlag_iff m).mpr hm
  rw [bytePair_eq, microEvents_append, microEvents_nib (nibbleHi_legal hflag), microEvents_nib (nibbleLo_legal hflag)]
  rfl

/-- 40_nibble_encoder.md R92: every frame of a nibble argument has backlight 1 and read/write 0. -/
theorem microFrames_nib_legal {a : Byte} (ha : a &&& nargZeroMask = 0#8) : ∀ b ∈ microFrames (nib a), LegalFrame b := by
  have hframes : microFrames (nib a) = [frameHi cfg a, frameLo cfg a] := rfl
  rw [hframes, ← frameOf_frameHi a ha, ← frameOf_frameLo a ha]
  exact List.forall_mem_cons.mpr ⟨frameOf_legal _ _ _, List.forall_mem_singleton.mpr (frameOf_legal _ _ _)⟩

theorem microFrames_bytePair_legal {m : Byte} (hm : isModeFlag cfg m = true) (value : Byte) :
    ∀ b ∈ microFrames (bytePair value m), LegalFrame b := by
  rw [bytePair_eq, microFrames_append]
  exact List.forall_mem_append.mpr
    ⟨microFrames_nib_legal (nibbleHi_legal hm), microFrames_nib_legal (nibbleLo_legal hm)⟩

/-! ### `sendNibble` and `sendByte` -/

/-- Settles O17: the run of `NIB(a)`, whole or cut at either write. -/
theorem sendNibblePulsesEnable : Obligations.SendNibblePulsesEnable := by
  intro s a ha hp
  obtain ⟨hhi, hlo, -⟩ := framePair_eq a ha
  obtain ⟨t, he, hrun⟩ := runsItsList_sendNibble ha s hp
  refine ⟨t, he, fun hok => ?_, fun hf => ?_, fun hf => ?_⟩
  · obtain ⟨lines, heq, -⟩ := runWithin_of_answersOk (l := micro (.sendNibble a)) hok
    rw [heq] at hrun
    exact ⟨_, hrun, congrArg (s.trace ++ ·) (microEvents_nib ha), rfl, rfl, rfl, rfl, rfl, rfl⟩
  · obtain ⟨htrace, hidle⟩ := runWithin_of_failsAfter (l := micro (.sendNibble a)) Nat.two_pos hf
    have hcut : cutEvents 0 (micro (.sendNibble a)) = [txFail (frameHi cfg a)] := rfl
    exact ⟨_, hrun, by simp [htrace, hcut, hhi], hidle⟩
  · obtain ⟨htrace, hidle⟩ := runWithin_of_failsAfter (l := micro (.sendNibble a)) Nat.one_lt_two hf
    have hcut : cutEvents 1 (micro (.sendNibble a)) = [txOk (frameHi cfg a), .delay 1, txFail (frameLo cfg a)] := rfl
    exact ⟨_, hrun, by simp [htrace, hcut, hhi, hlo], hidle⟩

/-- Settles O18: the run of `BYTE(v, m)`, whole or cut at any of its four writes. -/
theorem sendByteSplitsHighNibbleFirst : Obligations.SendByteSplitsHighNibbleFirst := by
  intro s value m hm hp
  have hflag := (isModeFlag_iff m).mpr hm
  have hlegal := microFrames_bytePair_legal hflag value
  obtain ⟨t, he, hrun⟩ := runsItsList_sendByte (v := value) hflag s hp
  have hunfold : exec (.sendByte value m) s = .next (push _ s) := if_pos hflag
  refine ⟨t, he, (Host.Outcome.next.inj (hunfold.symm.trans he)).symm, fun hok => ?_, fun k hk hf => ?_⟩
  · obtain ⟨lines, heq, -⟩ := runWithin_of_answersOk (l := micro (.sendByte value m)) hok
    rw [heq] at hrun
    refine ⟨_, hrun, ?_, ?_, ?_, rfl, rfl, rfl, rfl, rfl⟩
    · exact (congrArg (s.trace ++ ·) (microEvents_bytePair hm value)).trans (List.append_assoc _ _ _).symm
    · rw [eventsSince_of_trace rfl, framesSent_microEvents]
      rfl
    · rw [eventsSince_of_trace rfl, framesSent_microEvents]
      exact hlegal
  · obtain ⟨htrace, hidle⟩ := runWithin_of_failsAfter (l := micro (.sendByte value m)) hk hf
    have hsent : framesSent (eventsSince s (runWithin (micro (.sendByte value m)) s)) =
        (microFrames (bytePair value m)).take (k + 1) := by
      rw [eventsSince_of_trace (htrace.trans (List.append_assoc _ _ _)), framesSent_append, framesSent_cutEvents]
      exact List.append_nil _
    refine ⟨_, hrun, htrace, ?_, ?_, hidle⟩
    · rw [hsent, List.length_take]
      exact Nat.min_eq_left hk
    · rw [hsent]
      exact fun b hb => hlegal b (List.mem_of_mem_take hb)

/-! ### The words sent to the display -/

/-- An internal instruction with every write answered `ok`: the events of its list, and back to what remained. -/
theorem exec_internal_runsTo {i : Instr} {s : State} {es : List Event} (hh : i.isHost = false) (hw : i.wf = true)
    (hp : s.port = none) (hes : microEvents (micro i) = es) : ∃ t, exec i s = .next t ∧
      (AnswersOk (framesSent es).length s → ∃ u, RunsTo t u ∧
        u = { s with seq := s.seq + es.length, trace := s.trace ++ es, lines := u.lines,
                     answers := u.answers, draws := s.draws + (framesSent es).length } ∧
        (∀ b, b ≠ 0x27 → u.lines.read b = s.lines.read b)) := by
  subst hes
  obtain ⟨t, he, hrun⟩ := runsItsList_of_internal hh hw s hp
  refine ⟨t, he, fun hok => ?_⟩
  rw [framesSent_microEvents] at hok ⊢
  obtain ⟨lines, heq, hread⟩ := runWithin_of_answersOk hok
  rw [heq] at hrun
  exact ⟨_, hrun, by rw [microEvents_length], hread⟩

/-- Settles O19: the events of each word's list are those of its nibble or byte. -/
theorem displayWordsSendTheirBytes : Obligations.DisplayWordsSendTheirBytes := by
  intro s a ch hp
  simp only [List.forall_mem_cons, List.not_mem_nil, false_implies, implies_true, and_true]
  exact ⟨exec_internal_runsTo rfl rfl hp rfl, exec_internal_runsTo rfl rfl hp rfl, exec_internal_runsTo rfl rfl hp rfl,
    exec_internal_runsTo rfl rfl hp rfl, exec_internal_runsTo rfl rfl hp rfl, exec_internal_runsTo rfl rfl hp rfl,
    exec_internal_runsTo rfl rfl hp (microEvents_bytePair (.inl rfl) _),
    exec_internal_runsTo rfl rfl hp (microEvents_bytePair (.inr rfl) ch)⟩

end Sys2Proof.Machine
end

section
/-! Proofs of the statements about whole host operations: as their lists (O14), INITIALIZE (O23), SETCURSOR (O24, O25),
PRINTSTRING (O26), CLEAR (O27), and their independence of history (O31). -/

namespace Sys2Proof.Machine

/-! ### A host operation as its list -/

/-- The state at the acceptance of a host operation, with nothing ahead: where the run of its list begins. -/
def accepted (i : Instr) (s : State) : State := start i (fsmAtStart i s.fsm) [] s

@[simp] theorem answerAt_accepted (i : Instr) (s : State) (k : Nat) : (accepted i s).answerAt k = s.answerAt k := rfl

theorem completion_todo (i : Instr) (s : State) (ts : List Task) :
    completion i { s with todo := ts } = { completion i s with todo := ts } := by cases i <;> rfl

/-- The run of a whole operation does not look at the tasks ahead. -/
theorem runOperation_todo (i : Instr) (s : State) (ts : List Task) :
    runOperation i { s with todo := ts } = runOperation i s := by
  simp only [runOperation, runMicro_todo]
  rcases runMicro (micro i) s with ⟨u, _ | _⟩
  · simp [finish, completion_todo]
  · rfl

/-- Once the list of the running operation is done, one step ends the operation (notes/assumptions/21.md). -/
theorem runsTo_runOperation {i : Instr} {s : State} (ho : s.op = some i) (ht : s.todo = []) (hp : s.port = none) :
    RunsTo (runWithin (micro i) s) (runOperation i s) := by
  obtain ⟨-, -, -, hop, htodo, hport, -⟩ := runMicro_frame (micro i) s
  simp only [runWithin, runOperation]
  rcases hr : runMicro (micro i) s with ⟨u, _ | _⟩
  · rw [hr] at hop htodo hport
    exact .step (step_finished (hport.trans hp) (htodo.trans ht) (hop.trans ho)) (.refl _)
  · exact .refl _

/-- A host operation called in the state it needs runs to where its list leads (40_nibble_encoder.md R93). -/
theorem exec_host_runsOperation {i : Instr} {s : State} (hh : i.isHost = true) (hq : Quiet s)
    (ha : admits s.fsm i = true) : ∃ t, exec i s = .next t ∧ RunsTo t (runOperation i (accepted i s)) := by
  obtain ⟨t, he, hrun⟩ := exec_host_runsTo hh hq ha
  exact ⟨t, he, hrun.trans (runsTo_runOperation rfl rfl hq.2.2)⟩

/-- Settles O14: acceptance is `start`, and the tasks it puts ahead do not change where the list leads. -/
theorem hostOperationsRunTheirLists : Obligations.HostOperationsRunTheirLists := by
  intro i s hh hq ha
  obtain ⟨t, he, hrun⟩ := exec_host_runsOperation hh hq ha
  obtain ⟨ts, -, haccept⟩ := exec_host hh
  obtain ⟨-, -, rfl⟩ := accept_next ((haccept s).symm.trans he)
  have htodo := runOperation_todo i (accepted i s) ts
  exact ⟨_, he, rfl, htodo ▸ hrun⟩

/-! ### A host operation that succeeds -/

/-- With every write answered `ok` the operation emits the events of its list and ends as `finish` says. -/
theorem completesWith_of_answersOk {i : Instr} {s : State} {es : List Event} (hh : i.isHost = true) (hq : Quiet s)
    (ha : admits s.fsm i = true) (hok : AnswersOk (microFrames (micro i)).length s) (hes : microEvents (micro i) = es) :
    CompletesWith s i es (finish i (runMicro (micro i) (accepted i s)).1) := by
  subst hes
  obtain ⟨lines, heq, -⟩ := runMicro_of_answersOk (s := accepted i s) hok
  obtain ⟨t, he, hrun⟩ := exec_host_runsOperation hh hq ha
  rw [runOperation, heq] at hrun
  rw [heq]
  exact ⟨t, he, hrun, by simp [accepted], ⟨rfl, rfl, (finish_port _ _).trans hq.2.2⟩, rfl⟩

theorem CompletesWith.eventsSince {s u : State} {i : Instr} {es : List Event} (h : CompletesWith s i es u) :
    eventsSince s u = .call i :: es ++ [.ret .ok] := by
  obtain ⟨t, -, -, htrace, -⟩ := h
  exact eventsSince_of_trace (by simpa using htrace)

/-- Before its end an operation has changed neither `fsm` since its acceptance nor the cursor (10_state.md R22). -/
theorem runMicro_accepted (i : Instr) (s : State) :
    (runMicro (micro i) (accepted i s)).1.fsm = fsmAtStart i s.fsm ∧
    (runMicro (micro i) (accepted i s)).1.curRow = s.curRow ∧
    (runMicro (micro i) (accepted i s)).1.curCol = s.curCol := by
  obtain ⟨hfsm, hrow, hcol, -⟩ := runMicro_frame (micro i) (accepted i s)
  exact ⟨hfsm, hrow, hcol⟩

/-- Settles O23: the list of INITIALIZE, with its frames and waits. -/
theorem initialiseIssuesTheSevenSteps : Obligations.InitialiseIssuesTheSevenSteps := by
  intro s hq hf hok
  have hdone := completesWith_of_answersOk (i := .initialise) rfl hq (by simp [admits, hf]) hok rfl
  refine ⟨_, hdone, rfl, rfl, rfl, ?_, ?_⟩
  · rw [hdone.eventsSince]; decide
  · rw [hdone.eventsSince]; decide

/-- The address command of a clamped position (30_encoding.md R71, R72). -/
theorem setDdramByte_ddramAddr (row col : Byte) : setDdramByte cfg (ddramAddr cfg row col) =
    0x80#8 ||| BitVec.ofNat 8 ((if row = 0#8 then 0 else 0x40) + min col.toNat 15) := by
  have haddr : (if row = 0#8 then 0 else 0x40) + min col.toNat 15 = (ddramAddr cfg row col).toNat := by
    rw [ddramAddressFitsSevenBits.2]
    split <;> simp
  rw [haddr, BitVec.ofNat_toNat]
  exact (setDdramByte_fields _).1

/-- Settles O24: one address command, then the clamped operands as cursor. -/
theorem setCursorSendsTheAddress : Obligations.SetCursorSendsTheAddress := by
  intro s row col hq hf hok
  obtain ⟨hfsm, -, -⟩ := runMicro_accepted (.setCursor row col) s
  have hlist : microEvents (micro (.setCursor row col)) = byteEvents (setDdramByte cfg (ddramAddr cfg row col)) 0#8 :=
    microEvents_bytePair (.inl rfl) _
  rw [setDdramByte_ddramAddr] at hlist
  exact ⟨_, completesWith_of_answersOk rfl hq (by simp [admits, hf]) hok hlist, hfsm.trans hf,
    toNat_ofNat_clampRow row, toNat_ofNat_clampCol col⟩

/-- The events of a text are those of its characters in order. -/
theorem microEvents_printString (text : List Byte) :
    microEvents (micro (.printString text)) = text.flatMap (fun ch => byteEvents ch 0x01#8) := by
  induction text with
  | nil => rfl
  | cons ch rest ih =>
    have hcons : micro (.printString (ch :: rest)) = bytePair ch 0x01#8 ++ micro (.printString rest) := rfl
    rw [hcons, microEvents_append, ih, microEvents_bytePair (.inr rfl), List.flatMap_cons]

/-- Settles O26: one data byte per character; the run of the empty list is no run. -/
theorem printStringSendsEachCharacter : Obligations.PrintStringSendsEachCharacter := by
  intro s text hq hf hok
  obtain ⟨hfsm, hrow, hcol⟩ := runMicro_accepted (.printString text) s
  obtain ⟨hframes, -⟩ := printString_durations text
  rw [← hframes] at hok
  refine ⟨_, completesWith_of_answersOk rfl hq (by simp [admits, hf]) hok (microEvents_printString text),
    hfsm.trans hf, hrow, hcol, ?_⟩
  rintro rfl
  exact ⟨rfl, rfl⟩

/-- Settles O27: the list of CLEAR ends with its wait. -/
theorem clearWaitsBeforeReturning : Obligations.ClearWaitsBeforeReturning := by
  intro s hq hf hok
  obtain ⟨hfsm, -, -⟩ := runMicro_accepted .clear s
  exact ⟨_, completesWith_of_answersOk rfl hq (by simp [admits, hf]) hok rfl, hfsm.trans hf, rfl, rfl⟩

/-! ### Independence of history -/

theorem quiet_runOperation (i : Instr) {s : State} (hp : s.port = none) : Quiet (runOperation i s) := by
  obtain ⟨-, -, -, -, -, hport, -⟩ := runMicro_frame (micro i) s
  rw [runOperation]
  rcases hr : runMicro (micro i) s with ⟨u, _ | _⟩
  · exact ⟨rfl, rfl, (finish_port i u).trans ((hr ▸ hport).trans hp)⟩
  · exact ⟨rfl, rfl, (hr ▸ hport).trans hp⟩

/-- The events of an operation after its acceptance depend only on its list and the answers ahead, not on the rest of
the state (43_display_operations.md R135). -/
theorem exists_events_runOperation (l : List Micro) (s : State) : ∃ es r, ∀ (i : Instr) (s' : State), micro i = l →
    (∀ k, s'.answerAt k = s.answerAt k) → (runOperation i s').trace = s'.trace ++ es ++ [.ret r] := by
  rcases answersOk_or_failsAfter (microFrames l).length s with hok | ⟨k, hk, hok, hfail⟩
  · refine ⟨microEvents l, .ok, fun i s' hl hans => ?_⟩
    obtain ⟨lines, hrun, -⟩ := runMicro_of_answersOk (l := l) (s := s') fun j hj => (hans j).trans (hok j hj)
    rw [runOperation, hl, hrun]
    exact finish_trace _ _
  · refine ⟨cutEvents k l, .fail, fun i s' hl hans => ?_⟩
    obtain ⟨hres, htrace⟩ := runMicro_of_failsAfter (s := s') hk
      ⟨fun j hj => (hans j).trans (hok j hj), (hans k).trans hfail⟩
    rcases hr : runMicro l s' with ⟨u, r⟩
    obtain rfl : r = .fail := by simpa [hr] using hres
    rw [hr] at htrace
    rw [runOperation, hl, hr]
    exact (abort_trace u).trans (htrace ▸ rfl)

/-- The same events after the `CALL`, for every idle block with these answers ahead. -/
theorem exists_eventsSince_runOperation (l : List Micro) (s : State) : ∃ es r, ∀ (i : Instr) (s' : State),
    micro i = l → (∀ k, s'.answerAt k = s.answerAt k) →
      eventsSince s' (runOperation i (accepted i s')) = .call i :: (es ++ [.ret r]) := by
  obtain ⟨es, r, hes⟩ := exists_events_runOperation l s
  refine ⟨es, r, fun i s' hl hans => eventsSince_of_trace ?_⟩
  rw [hes i (accepted i s') hl hans]
  simp [accepted]

/-- Settles O31: both calls run the one list against the same answers. -/
theorem callsAreIndependentOfHistory : Obligations.CallsAreIndependentOfHistory := by
  intro i s₁ s₂ hh hq₁ hq₂ ha₁ ha₂ hans
  obtain ⟨t₁, he₁, hrun₁⟩ := exec_host_runsOperation hh hq₁ ha₁
  obtain ⟨t₂, he₂, hrun₂⟩ := exec_host_runsOperation hh hq₂ ha₂
  obtain ⟨es, r, hes⟩ := exists_eventsSince_runOperation (micro i) s₁
  have hev₁ := hes i s₁ rfl fun _ => rfl
  have hev₂ := hes i s₂ rfl fun k => (hans k).symm
  refine ⟨t₁, t₂, _, _, he₁, he₂, hrun₁, hrun₂, quiet_runOperation i hq₁.2.2, quiet_runOperation i hq₂.2.2,
    hev₁.trans hev₂.symm, r, ?_⟩
  rw [hev₁, ← List.cons_append, List.getLast?_concat]

/-! ### SETCURSOR with operands out of range -/

/-- A run of micro-operations does not look at the operation it belongs to, nor at the trace. -/
theorem runMicro_op_trace (l : List Micro) (s : State) (op : Option Instr) (tr : List Event) :
    ∃ tr', runMicro l { s with op := op, trace := tr } =
      ({ (runMicro l s).1 with op := op, trace := tr' }, (runMicro l s).2) := by
  induction l generalizing s tr with
  | nil => exact ⟨tr, rfl⟩
  | cons x rest ih =>
    cases x with
    | wait ms => exact ih (delay ms s) _
    | tx b =>
      have hans : State.answerAt { s with op := op, trace := tr } 0 = s.answerAt 0 := rfl
      simp only [runMicro, hans]
      cases ha : s.answerAt 0 with
      | ok => exact ih (advance (memWrite cfg.i2cAddr b s)) _
      | fail => exact ⟨_, rfl⟩

theorem clampRow_ofNat_clampRow (row : Byte) : clampRow cfg (BitVec.ofNat 8 (clampRow cfg row)) = clampRow cfg row := by
  change min (BitVec.ofNat 8 (clampRow cfg row)).toNat 1 = min row.toNat 1
  rw [toNat_ofNat_clampRow]
  omega

theorem clampCol_ofNat_clampCol (col : Byte) : clampCol cfg (BitVec.ofNat 8 (clampCol cfg col)) = clampCol cfg col := by
  change min (BitVec.ofNat 8 (clampCol cfg col)).toNat 15 = min col.toNat 15
  rw [toNat_ofNat_clampCol]
  omega

theorem micro_setCursor_congr {row col row' col' : Byte} (hrow : clampRow cfg row' = clampRow cfg row)
    (hcol : clampCol cfg col' = clampCol cfg col) : micro (.setCursor row' col') = micro (.setCursor row col) := by
  simp only [micro, ddramAddr, ddramSum, hrow, hcol]

/-- Two calls with the same clamped operands end in states that differ in the trace alone. -/
theorem runOperation_setCursor_congr {row col row' col' : Byte} (hrow : clampRow cfg row' = clampRow cfg row)
    (hcol : clampCol cfg col' = clampCol cfg col) (s : State) : ∃ tr,
      runOperation (.setCursor row' col') (accepted (.setCursor row' col') s) =
        { runOperation (.setCursor row col) (accepted (.setCursor row col) s) with trace := tr } := by
  obtain ⟨tr, hrun⟩ := runMicro_op_trace (micro (.setCursor row col)) (accepted (.setCursor row col) s)
    (some (.setCursor row' col')) (s.trace ++ [.call (.setCursor row' col')])
  have hstart : accepted (.setCursor row' col') s = { accepted (.setCursor row col) s with
      op := some (.setCursor row' col'), trace := s.trace ++ [.call (.setCursor row' col')] } := by
    simp [accepted, start, emit, fsmAtStart]
  rw [runOperation, runOperation, micro_setCursor_congr hrow hcol, hstart, hrun]
  rcases runMicro (micro (.setCursor row col)) (accepted (.setCursor row col) s) with ⟨u, _ | _⟩
  · exact ⟨tr ++ [.ret .ok], by simp [finish, completion, emit, hrow, hcol]⟩
  · exact ⟨tr ++ [.ret .fail], rfl⟩

/-- Where no SETCURSOR is taken, all are refused alike. -/
theorem exec_setCursor_refused {s : State} (h : busy s = true ∨ s.fsm ≠ .ready) (row col : Byte) :
    exec (.setCursor row col) s = .refused (if busy s then .callWhileBusy else .wrongState s.fsm) := by
  cases hb : busy s with
  | true => exact accept_of_busy hb
  | false => exact accept_of_not_admits hb (by simpa [admits, hb] using h)

/-- Settles O25: the saturated operands are the clamped ones, and clamping them again changes nothing. -/
theorem setCursorSaturates : Obligations.SetCursorSaturates := by
  intro row col
  have hrow := clampRow_ofNat_clampRow row
  have hcol := clampCol_ofNat_clampCol col
  have hmicro := micro_setCursor_congr hrow hcol
  refine ⟨_, _, toNat_ofNat_clampRow row, toNat_ofNat_clampCol col, hmicro.symm, fun s h => ?_, fun s hq hf => ?_, ?_⟩
  · rw [exec_setCursor_refused h, exec_setCursor_refused h]
  · have ha : ∀ row col, admits s.fsm (.setCursor row col) = true := fun _ _ => by simp [admits, hf]
    obtain ⟨t, he, hrun⟩ := exec_host_runsOperation rfl hq (ha row col)
    obtain ⟨t', he', hrun'⟩ := exec_host_runsOperation rfl hq (ha _ _)
    obtain ⟨es, r, hes⟩ := exists_eventsSince_runOperation (micro (.setCursor row col)) s
    obtain ⟨tr, hsame⟩ := runOperation_setCursor_congr hrow hcol s
    refine ⟨es ++ [.ret r], t, t', _, _, he, he', hrun, hrun', quiet_runOperation _ hq.2.2, quiet_runOperation _ hq.2.2,
      ⟨r, List.getLast?_concat⟩, hes _ s rfl fun _ => rfl, hes _ s hmicro fun _ => rfl, ?_⟩
    rw [hsame]
  · rintro rfl rfl
    decide

end Sys2Proof.Machine
end

section
/-! Proof of the statement about 43_display_operations.md section 4: an accepted operation ends (O30). The measure is the
number of steps that the tasks ahead still take, layer by layer. -/

namespace Sys2Proof.Machine

/-! ### The measure -/

/-- How many steps the word of an internal instruction takes until nothing of it is left, and how many the tasks take that
a host operation starts with. -/
def Instr.steps : Instr → Nat
  | .frameEnHigh _ _ | .frameEnLow _ _ => 1
  | .sendNibble _ => 5
  | .wake | .set4Bit => 6
  | .sendByte _ _ => 11
  | .functionSet | .displayControl | .entryModeSet | .setDdramAddr _ | .writeData _ => 12
  | .clearDisplay => 13
  | .initialise => 78
  | .setCursor _ _ => 12
  | .printString text => 12 * text.length
  | .clear => 13

def Task.steps : Task → Nat
  | .wait _ => 1
  | .word w =>
    match decode w with
    | .ok i => Instr.steps i
    | .error _ => 0

def stepsAhead (ts : List Task) : Nat := (ts.map Task.steps).sum

@[simp] theorem stepsAhead_nil : stepsAhead [] = 0 := rfl

@[simp] theorem stepsAhead_cons (x : Task) (ts : List Task) : stepsAhead (x :: ts) = x.steps + stepsAhead ts :=
  List.sum_cons

theorem stepsAhead_append (a b : List Task) : stepsAhead (a ++ b) = stepsAhead a + stepsAhead b := by
  simp [stepsAhead]

@[simp] theorem Task.steps_wait (ms : Nat) : (Task.wait ms).steps = 1 := rfl

theorem Task.steps_word {w : Code} {i : Instr} (hd : decode w = .ok i) : (Task.word w).steps = Instr.steps i := by
  simp [Task.steps, hd]

theorem stepsAhead_sendByte (v : Byte) (data : Bool) : stepsAhead [runTask (.sendByte v (modeFlag cfg data))] = 11 := by
  rw [stepsAhead_cons, runTask, Task.steps_word (decode_sendByte (isModeFlag_modeFlag data))]
  rfl

/-- Running the word of an internal instruction takes one step off the measure. -/
theorem exec_internal_steps {i : Instr} (hh : i.isHost = false) (hw : i.wf = true) :
    (∃ ts, (∀ x ∈ ts, x.wf = true) ∧ stepsAhead ts + 1 = Instr.steps i ∧ ∀ s, exec i s = .next (push ts s)) ∨
    (Instr.steps i = 1 ∧ ∃ b, ∀ s, exec i s = .next (transmit b s)) := by
  cases i with
  | sendByte v m =>
    have hhi := Task.steps_word (decode_narg (nibbleHi_legal (v := v) hw))
    have hlo := Task.steps_word (decode_narg (nibbleLo_legal (v := v) hw))
    exact .inl ⟨_, (standsFor_byte hw).2, by simp [hhi, hlo, Instr.steps], fun s => if_pos hw⟩
  | sendNibble a =>
    have ha : a &&& nargZeroMask = 0#8 := by simpa [Instr.wf] using hw
    have hhi := Task.steps_word (decode_frameHi ha)
    have hlo := Task.steps_word (decode_frameLo ha)
    exact .inl ⟨_, (standsFor_nibble ha).2, by simp [hhi, hlo, Instr.steps], fun s => if_pos ha⟩
  | wake | set4Bit => exact .inl ⟨_, List.forall_mem_singleton.mpr rfl, rfl, fun _ => rfl⟩
  | functionSet | displayControl | entryModeSet | setDdramAddr a =>
    exact .inl ⟨_, (standsFor_sendByte _ false).2, congrArg (· + 1) (stepsAhead_sendByte _ false), fun _ => rfl⟩
  | writeData ch =>
    exact .inl ⟨_, (standsFor_sendByte ch true).2, congrArg (· + 1) (stepsAhead_sendByte ch true), fun _ => rfl⟩
  | clearDisplay =>
    exact .inl ⟨_, ((standsFor_sendByte _ false).append (standsFor_wait cfg.tClear)).2, rfl, fun _ => rfl⟩
  | frameEnHigh n r | frameEnLow n r => exact .inr ⟨rfl, _, fun _ => rfl⟩
  | initialise | setCursor | printString | clear => cases hh

/-- A host operation starts with tasks of its measure. -/
theorem exec_host_steps {i : Instr} (hh : i.isHost = true) : ∃ ts, (∀ x ∈ ts, x.wf = true) ∧
    stepsAhead ts = Instr.steps i ∧ ∀ s, exec i s = accept i (fsmAtStart i s.fsm) ts s := by
  cases i with
  | initialise => exact ⟨_, standsFor_initTasks.2, rfl, fun _ => rfl⟩
  | setCursor row col =>
    have hd := decode_setDdramAddr (ddramAddr cfg row col)
    have hsteps := Task.steps_word hd
    exact ⟨_, (standsFor_word hd rfl rfl).2, hsteps, fun _ => rfl⟩
  | printString text =>
    have hsteps : ∀ ch, (runTask (.writeData ch)).steps = 12 := fun ch => Task.steps_word (decode_writeData ch)
    refine ⟨_, (standsFor_text text).2, ?_, fun _ => rfl⟩
    simp [stepsAhead, Function.comp_def, hsteps, Instr.steps, Nat.mul_comm]
  | clear => exact ⟨_, (standsFor_word (i := .clearDisplay) rfl rfl rfl).2, rfl, fun _ => rfl⟩
  | _ => cases hh

/-! ### Every operation ends -/

theorem RunsWithin.refl (n : Nat) (s : State) : RunsWithin n s s := ⟨0, Nat.zero_le n, rfl⟩

theorem RunsWithin.step {n : Nat} {s t u : State} (h : Machine.step s = .next t) (h' : RunsWithin n t u) :
    RunsWithin (n + 1) s u := by
  obtain ⟨k, hk, hrun⟩ := h'
  have hstep : Sys2Proof.core.step s = .next t := h
  exact ⟨k + 1, Nat.succ_le_succ hk, by simpa only [Host.Core.run, hstep] using hrun⟩

theorem Task.exists_of_wf {w : Code} (h : (Task.word w).wf = true) :
    ∃ i, decode w = .ok i ∧ i.wf = true ∧ i.isHost = false := by
  simp only [Task.wf] at h
  split at h
  · rename_i i hd
    exact ⟨i, hd, by simpa using h⟩
  · cases h

/-- At rest, with a `RET` as the last event. -/
def Returned (u : State) : Prop := Quiet u ∧ ∃ r, u.trace.getLast? = some (.ret r)

/-- A running operation whose tasks take fewer than `n` steps has returned within `n`: each step takes one off the measure,
or returns. -/
theorem returns_within {n : Nat} {s : State} {i : Instr} (ho : s.op = some i) (hp : s.port = none)
    (hwf : ∀ x ∈ s.todo, x.wf = true) (hn : stepsAhead s.todo < n) : ∃ u, RunsWithin n s u ∧ Returned u := by
  induction n generalizing s with
  | zero => exact absurd hn (Nat.not_lt_zero _)
  | succ n ih =>
    cases ht : s.todo with
    | nil =>
      refine ⟨_, .step (step_finished hp ht ho) (.refl n _), ⟨rfl, rfl, (finish_port i s).trans hp⟩, .ok, ?_⟩
      rw [finish_trace, List.getLast?_concat]
    | cons x rest =>
      rw [ht, stepsAhead_cons] at hn
      rw [ht] at hwf
      obtain ⟨hx, hrest⟩ := List.forall_mem_cons.mp hwf
      cases x with
      | wait ms =>
        rw [Task.steps_wait] at hn
        obtain ⟨u, hrun, hu⟩ := ih (s := delay ms { s with todo := rest }) ho hp hrest (by simp; omega)
        exact ⟨u, .step (step_wait hp ht) hrun, hu⟩
      | word w =>
        obtain ⟨j, hd, hj, hhost⟩ := Task.exists_of_wf hx
        rw [Task.steps_word hd] at hn
        have hstep := step_word hp ht hd
        rcases exec_internal_steps hhost hj with ⟨ts, hts, hsteps, he⟩ | ⟨hone, b, he⟩ <;> rw [he] at hstep
        · obtain ⟨u, hrun, hu⟩ := ih (s := push ts { s with todo := rest }) ho hp
            (List.forall_mem_append.mpr ⟨hts, hrest⟩) (by simp [stepsAhead_append]; omega)
          exact ⟨u, .step hstep hrun, hu⟩
        · rcases transmit_cases b { s with todo := rest } with ⟨-, hb⟩ | ⟨-, hb⟩ <;> rw [hb] at hstep
          · obtain ⟨u, hrun, hu⟩ := ih (s := advance (memWrite cfg.i2cAddr b { s with todo := rest })) ho hp hrest
              (by simp; omega)
            exact ⟨u, .step hstep hrun, hu⟩
          · refine ⟨_, .step hstep (.refl n _), ⟨rfl, rfl, hp⟩, .fail, ?_⟩
            rw [abort_trace, List.getLast?_concat]

/-- Settles O30: the measure of the tasks at the acceptance, and one step for the end. -/
theorem acceptedOperationsEnd : Obligations.AcceptedOperationsEnd := by
  intro i s hh hq ha
  obtain ⟨hop, htodo, hport⟩ := hq
  obtain ⟨ts, hwf, hsteps, he⟩ := exec_host_steps hh
  have hstart := (he s).trans (accept_of_idle (busy_eq_false.mpr ⟨hop, htodo⟩) ha)
  obtain ⟨u, hrun, hquiet, hret⟩ := returns_within (n := Instr.steps i + 1)
    (s := start i (fsmAtStart i s.fsm) ts s) rfl hport hwf (by simp [hsteps])
  refine ⟨_, u, hstart, hquiet, hret, ?_⟩
  cases i with
  | initialise | setCursor | printString | clear => exact hrun
  | _ => cases hh

end Sys2Proof.Machine
end

section
/-! Proofs of the statements about what the display sees: the latched nibbles (O42), the display after INITIALIZE (O43) and
a text at the cursor (O44). -/

namespace Sys2Proof.Machine

/-! ### The latched nibbles -/

/-- A frame with enable cleared latches nothing with what follows it. -/
theorem latchedOf_cons_of_low {f : Byte} (h : f &&& cfg.en = 0#8) (fs : List Byte) :
    latchedOf (f :: fs) = latchedOf fs := by
  cases fs with
  | nil => rfl
  | cons g rest => simp [latchedOf, h]

/-- The enable pulse of a nibble argument and the fields of its first frame (40_nibble_encoder.md R94). -/
theorem framePair_pulse : ∀ a : Byte, a &&& nargZeroMask = 0#8 →
    (frameHi cfg a &&& cfg.en ≠ 0#8 ∧ frameLo cfg a = frameHi cfg a &&& ~~~cfg.en) ∧
    frameLo cfg a &&& cfg.en = 0#8 ∧ (frameHi cfg a).getLsbD 0 = a.getLsbD 0 ∧
    (frameHi cfg a).extractLsb' 4 4 = a.extractLsb' 4 4 := by decide

theorem latchedOf_nib_append {a : Byte} (ha : a &&& nargZeroMask = 0#8) (fs : List Byte) :
    latchedOf (microFrames (nib a) ++ fs) = (a.getLsbD 0, a.extractLsb' 4 4) :: latchedOf fs := by
  obtain ⟨hpulse, hlow, hrs, hnibble⟩ := framePair_pulse a ha
  have hframes : microFrames (nib a) ++ fs = frameHi cfg a :: frameLo cfg a :: fs := rfl
  rw [hframes, latchedOf, if_pos hpulse, latchedOf_cons_of_low hlow, hrs, hnibble]

/-- The two nibbles of a byte, high first, each with the register select. -/
def nibblesOf (data : Bool) (value : Byte) : List (Bool × Nibble) :=
  [(data, value.extractLsb' 4 4), (data, value.extractLsb' 0 4)]

theorem latchedOf_bytePair_append {m : Byte} (hm : m = 0x00#8 ∨ m = 0x01#8) (value : Byte) (fs : List Byte) :
    latchedOf (microFrames (bytePair value m) ++ fs) = nibblesOf (m.getLsbD 0) value ++ latchedOf fs := by
  have hflag := (isModeFlag_iff m).mpr hm
  obtain ⟨hhi, hlo, -, -, hhiRs, hloRs⟩ := nibbleArgs_fields hm value
  rw [bytePair_eq, microFrames_append, List.append_assoc, latchedOf_nib_append (nibbleHi_legal hflag),
    latchedOf_nib_append (nibbleLo_legal hflag), hhi, hlo, hhiRs, hloRs]
  rfl

theorem framesReceived_microEvents (l : List Micro) : framesReceived (microEvents l) = microFrames l := by
  induction l with
  | nil => rfl
  | cons x rest ih => cases x <;> simp [microEvents, microFrames, framesReceived, txOk, ih]

/-- An internal instruction with every write answered `ok` latches what the frames of its list do. -/
theorem exec_internal_latched {i : Instr} {s : State} (hh : i.isHost = false) (hw : i.wf = true) (hp : s.port = none) :
    ∃ t, exec i s = .next t ∧ (AnswersOk (microFrames (micro i)).length s → ∃ u, RunsTo t u ∧ u.todo = s.todo ∧
      u.op = s.op ∧ latched (eventsSince s u) = latchedOf (microFrames (micro i))) := by
  obtain ⟨t, he, hrun⟩ := runsItsList_of_internal hh hw s hp
  refine ⟨t, he, fun hok => ?_⟩
  obtain ⟨lines, heq, -⟩ := runWithin_of_answersOk hok
  rw [heq] at hrun
  refine ⟨_, hrun, rfl, rfl, ?_⟩
  rw [eventsSince_of_trace rfl, latched, framesReceived_microEvents]

/-- Settles O42: the frames of the two lists, and the runs that emit them. -/
theorem byteIsLatchedHighNibbleFirst : Obligations.ByteIsLatchedHighNibbleFirst := by
  refine ⟨fun s a ha hp => ?_, fun s value m hm hp => ?_⟩
  · have hlatched : latchedOf (microFrames (micro (.sendNibble a))) = [(a.getLsbD 0, a.extractLsb' 4 4)] :=
      latchedOf_nib_append ha []
    exact ⟨hlatched, hlatched ▸ exec_internal_latched rfl (beq_iff_eq.mpr ha) hp⟩
  · have hlatched : latchedOf (microFrames (micro (.sendByte value m))) =
        [(m.getLsbD 0, value.extractLsb' 4 4), (m.getLsbD 0, value.extractLsb' 0 4)] :=
      latchedOf_bytePair_append hm value []
    exact ⟨hlatched, hlatched ▸ exec_internal_latched rfl ((isModeFlag_iff m).mpr hm) hp⟩

/-! ### After INITIALIZE -/

/-- What is known of the display after a failure-free INITIALIZE from reset (41_display_commands.md R101 to R106). -/
def initialisedView : View :=
  { View.unknown with wakes := 3, fourBit := true, twoLines5x8 := true, onNoCursorNoBlink := true, leftToRight := true,
                      addr := some 0#7, background := .blank }

theorem displayAfter_initialise :
    displayAfter (.call .initialise :: microEvents initMicro ++ [.ret .ok]) = initialisedView := by decide

/-- Settles O43: the trace is the list of INITIALIZE, and its reading is computed. -/
theorem displayIsReadyAfterInitialise : Obligations.DisplayIsReadyAfterInitialise := by
  intro s hq hf htr hok
  obtain ⟨t, he, hrun, htrace, hquiet, -⟩ :=
    completesWith_of_answersOk (i := .initialise) rfl hq (by simp [admits, hf]) hok rfl
  rw [htr, List.nil_append] at htrace
  refine ⟨t, _, he, hrun, rfl, hquiet, ?_⟩
  rw [htrace]
  refine ⟨by decide, ?_⟩
  simp only [micro, displayAfter_initialise]
  exact ⟨rfl, rfl, rfl, rfl, rfl, rfl, fun _ => rfl⟩

/-! ### A byte received by a display in four-bit mode -/

theorem nibbles_append : ∀ value : Byte, value.extractLsb' 4 4 ++ value.extractLsb' 0 4 = value := by decide

/-- In four-bit mode, at a byte boundary, two nibbles are one byte (41_display_commands.md R102). -/
theorem foldl_latch_nibblesOf {v : View} (hbit : v.fourBit = true) (hhalf : v.half = none) (data : Bool)
    (value : Byte) : (nibblesOf data value).foldl View.latch v = v.receive data value := by
  cases v
  cases hbit
  cases hhalf
  simp [nibblesOf, View.latch, nibbles_append]

theorem receive_setDdramAddr (v : View) (a : DdramAddr) :
    v.receive false (setDdramByte cfg a) = { v with addr := some a } := by
  have hd : decode (.xfer9 (BitVec.ofBool false ++ setDdramByte cfg a)) = .ok (.setDdramAddr a) := decode_setDdramAddr a
  rw [View.receive, hd]

theorem receive_writeData (v : View) (ch : Byte) : v.receive true ch = v.store ch := by
  have hd : decode (.xfer9 (BitVec.ofBool true ++ ch)) = .ok (.writeData ch) := decode_writeData ch
  rw [View.receive, hd]

/-- Storing a character leaves the mode and the byte boundary. -/
theorem store_mode (v : View) (ch : Byte) : (v.store ch).fourBit = v.fourBit ∧ (v.store ch).half = v.half ∧
    (v.store ch).leftToRight = v.leftToRight := by
  cases hv : v.addr <;> simp [View.store, hv]

theorem foldl_latch_text {v : View} (hbit : v.fourBit = true) (hhalf : v.half = none) (text : List Byte) :
    (text.flatMap (nibblesOf true)).foldl View.latch v = text.foldl View.store v := by
  induction text generalizing v with
  | nil => rfl
  | cons ch rest ih =>
    obtain ⟨hbit', hhalf', -⟩ := store_mode v ch
    rw [List.flatMap_cons, List.foldl_append, foldl_latch_nibblesOf hbit hhalf, receive_writeData,
      ih (hbit'.trans hbit) (hhalf'.trans hhalf), List.foldl_cons]

theorem latchedOf_printString (text : List Byte) :
    latchedOf (microFrames (micro (.printString text))) = text.flatMap (nibblesOf true) := by
  induction text with
  | nil => rfl
  | cons ch rest ih =>
    have hcons : micro (.printString (ch :: rest)) = bytePair ch 0x01#8 ++ micro (.printString rest) := rfl
    rw [hcons, microFrames_append, latchedOf_bytePair_append (.inr rfl), ih, List.flatMap_cons]
    rfl

/-! ### A text inside a row -/

/-- From position `p` on, `n` positions are inside one row of the default geometry (20_memory.md R44). -/
def FitsRow (p n : Nat) : Prop := p + n ≤ 16 ∨ (0x40 ≤ p ∧ p + n ≤ 0x50)

theorem toNat_ofNat_of_fitsRow {p n : Nat} (h : FitsRow p (n + 1)) : (BitVec.ofNat 7 p).toNat = p := by
  rw [BitVec.toNat_ofNat]
  exact Nat.mod_eq_of_lt (by unfold FitsRow at h; omega)

/-- Inside a row the display's address goes on to the next position (41_display_commands.md R106, R108). -/
theorem nextAddr_of_fitsRow {v : View} (hl : v.leftToRight = true) {p n : Nat} (h : FitsRow p (n + 2)) :
    nextAddr v (BitVec.ofNat 7 p) = some (BitVec.ofNat 7 (p + 1)) := by
  have hrow : p < 15 ∨ (0x40 ≤ p ∧ p < 0x4F) := by unfold FitsRow at h; omega
  simp [nextAddr, hl, toNat_ofNat_of_fitsRow h, cfg, hrow, BitVec.ofNat_add]

/-- A text that fits its row is stored from the display's address on, and nothing before it changes. -/
theorem foldl_store_read {v : View} (hl : v.leftToRight = true) {text : List Byte} {p : Nat}
    (ha : text ≠ [] → v.addr = some (BitVec.ofNat 7 p)) (hfit : FitsRow p text.length) :
    (∀ k ch, text[k]? = some ch → (text.foldl View.store v).written.read (p + k) = some ch) ∧
    (∀ q, q < p → (text.foldl View.store v).written.read q = v.written.read q) := by
  induction text generalizing v p with
  | nil => simp
  | cons ch rest ih =>
    have haddr := ha (List.cons_ne_nil ch rest)
    have hp := toNat_ofNat_of_fitsRow hfit
    have hstore : v.store ch = { v with written := v.written.write p ch, addr := nextAddr v (BitVec.ofNat 7 p) } := by
      simp [View.store, haddr, hp]
    have hnext : rest ≠ [] → (v.store ch).addr = some (BitVec.ofNat 7 (p + 1)) := fun hne => by
      obtain ⟨c, cs, rfl⟩ := List.exists_cons_of_ne_nil hne
      rw [hstore]
      exact nextAddr_of_fitsRow hl hfit
    have hrest : FitsRow (p + 1) rest.length := by
      unfold FitsRow at hfit ⊢
      simp only [List.length_cons] at hfit
      omega
    obtain ⟨hchars, hbefore⟩ := ih ((store_mode v ch).2.2.trans hl) hnext hrest
    have hfirst : (v.store ch).written.read p = some ch := by rw [hstore]; exact Memory.read_write_same _ _ _
    refine ⟨fun k c hk => ?_, fun q hq => ?_⟩
    · cases k with
      | zero =>
        cases hk
        exact (hbefore p (Nat.lt_succ_self p)).trans hfirst
      | succ k =>
        have hnextChar := hchars k c hk
        rwa [Nat.add_right_comm] at hnextChar
    · rw [List.foldl_cons, hbefore q (Nat.lt_succ_of_lt hq), hstore]
      exact Memory.read_write_other _ _ hq.ne

theorem fitsRow_ddramAddr {col : Byte} {n : Nat} (h : min col.toNat 15 + n ≤ 16) (row : Byte) :
    FitsRow (ddramAddr cfg row col).toNat n := by
  rw [ddramAddressFitsSevenBits.2, FitsRow]
  split <;> omega

theorem toNat_add_of_fitsRow {a : DdramAddr} {n k : Nat} (hfit : FitsRow a.toNat n) (hk : k < n) :
    (a + BitVec.ofNat 7 k).toNat = a.toNat + k := by
  unfold FitsRow at hfit
  rw [BitVec.toNat_add, BitVec.toNat_ofNat]
  omega

/-- The frames of SETCURSOR and then PRINTSTRING set the display's address and store the text from there. -/
theorem foldl_latch_setCursor_printString {v : View} (hbit : v.fourBit = true) (hhalf : v.half = none) (row col : Byte)
    (text : List Byte) :
    (latchedOf (microFrames (micro (.setCursor row col) ++ micro (.printString text)))).foldl View.latch v =
      text.foldl View.store { v with addr := some (ddramAddr cfg row col) } := by
  have hlatched : latchedOf (microFrames (micro (.setCursor row col) ++ micro (.printString text))) =
      nibblesOf false (setDdramByte cfg (ddramAddr cfg row col)) ++ text.flatMap (nibblesOf true) := by
    rw [microFrames_append, micro, latchedOf_bytePair_append (.inl rfl), latchedOf_printString]
    rfl
  rw [hlatched, List.foldl_append, foldl_latch_nibblesOf hbit hhalf, receive_setDdramAddr]
  exact foldl_latch_text (v := { v with addr := some (ddramAddr cfg row col) }) hbit hhalf text

/-- Settles O44: the text is stored from the address of the clamped position on. -/
theorem textStandsWhereTheCursorWasSet : Obligations.TextStandsWhereTheCursorWasSet := by
  intro v row col text hbit hhalf hl hlen k ch hk
  have hfit := fitsRow_ddramAddr hlen row
  obtain ⟨hlt, -⟩ := List.getElem?_eq_some_iff.mp hk
  obtain ⟨hchars, -⟩ := foldl_store_read (v := { v with addr := some (ddramAddr cfg row col) }) hl
    (fun _ => by simp) hfit
  rw [foldl_latch_setCursor_printString hbit hhalf, View.cell, toNat_add_of_fitsRow hfit hlt, hchars k ch hk]

end Sys2Proof.Machine
end
